-- ==== Sys2Proof/Word.lean ====
section
/-! DEFINITION. The words of the machine: bytes, 32-bit words and register numbers (00_scope.md R5; XLEN = 32,
NREGS = 32: 10_state.md R10). -/

namespace Sys2Proof

/-- One byte of either memory. -/
abbrev Byte := BitVec 8

/-- `XLEN` = 32: the width of every register, of the pc, of addresses and of ALU operands (00_scope.md R3, R5). -/
abbrev Word := BitVec 32

/-- A register number: the 5-bit field rs, rt or rd (10_state.md R10; 30_encoding.md R51, R55). -/
abbrev RegNum := BitVec 5

/-- The 16-bit immediate field of the I-format, raw (30_encoding.md R51, R53). -/
abbrev Imm16 := BitVec 16

/-- The 26-bit field of the J-format, raw (30_encoding.md R51, R54). -/
abbrev Imm26 := BitVec 26

end Sys2Proof
end

