-- ==== Sys2Proof/Machine/Flags.lean ====
section
/-! DEFINITION. The machine stores no flags (10_state.md R19). What an instruction computes like one, inside its own
cycle: the ALU output Zero and the signed overflow of `add` and `sub`. -/

namespace Sys2Proof.Machine

/-- The ALU output Zero: 1 exactly when the result is 0 (45_datapath_control.md R110). -/
def aluZero (r : Word) : Bool := r == 0#32

/-- Signed overflow of `add`: `a[31] = b[31] and r[31] != a[31]` (40_arithmetic_logic.md R71). -/
def addOverflows (a b : Word) : Bool := a.msb == b.msb && (a + b).msb != a.msb

/-- Signed overflow of `sub`: `a[31] != b[31] and r[31] != a[31]` (40_arithmetic_logic.md R72). -/
def subOverflows (a b : Word) : Bool := a.msb != b.msb && (a - b).msb != a.msb

end Sys2Proof.Machine
end

