-- ==== Sys2Proof/Config.lean ====
section
/-! DEFINITION. The parameters of the model (00_scope.md R3) as plain data, and the values the spec leaves
unconstrained as constants without a body. -/

namespace Sys2Proof

/-- `BYTE_ORDER`: which byte of a word lies at its lowest address (20_memory.md R30). -/
inductive ByteOrder where
  | big
  | little
  deriving DecidableEq, Repr

/-- `UNWRITTEN_REG_POLICY`: what a read of a register or of a data word that nothing has written yields
(10_state.md R13, 20_memory.md R35). -/
inductive UnwrittenPolicy where
  | fault
  | draw
  | init
  deriving DecidableEq, Repr

/-- `OVERFLOW_POLICY`: what `add` and `sub` do on signed overflow (40_arithmetic_logic.md R70). -/
inductive OverflowPolicy where
  | wrap
  | fault
  deriving DecidableEq, Repr

/-- A run of consecutive word addresses: `base`, `base + 4`, ... (`words` of them). `DMEM_DOMAIN` is a finite set of
addresses (20_memory.md R36), so a list of regions can name every such set. -/
structure Region where
  base  : Nat
  words : Nat
  deriving DecidableEq, Repr

/-- The parameters of a run (00_scope.md R3). `IMEM_DOMAIN` has no field: it is the set of addresses `PROGRAM` gives
a word (70_reset_and_hazards.md R153; log entry 1). -/
structure Config where
  /-- `ZERO_REG_HARDWIRED` (10_state.md R12). -/
  zeroRegHardwired : Bool
  /-- `UNWRITTEN_REG_POLICY` (10_state.md R13). -/
  unwritten        : UnwrittenPolicy
  /-- `OVERFLOW_POLICY` (40_arithmetic_logic.md R70). -/
  overflow         : OverflowPolicy
  /-- `BYTE_ORDER` (20_memory.md R30). -/
  byteOrder        : ByteOrder
  /-- `DMEM_DOMAIN` (20_memory.md R36). -/
  dmemDomain       : List Region
  /-- `RESET_PC` (70_reset_and_hazards.md R150). -/
  resetPc          : Word
  /-- `END_PC` (60_exceptions.md R140). -/
  endPc            : Word
  deriving DecidableEq, Repr

/-- The parameters `State.reset` is built from. `zeroRegHardwired`, `overflow` and `byteOrder` are the spec's defaults
(00_scope.md R3). DESIGN CHOICE (log entries 3 and 4): the rest. `dmemDomain` is the full 4 GiB, a choice
20_memory.md R36 allows; `resetPc` and `endPc` are OPEN in the spec; `unwritten` is `init` instead of the spec's
default `fault`. -/
def Config.default : Config where
  zeroRegHardwired := true
  unwritten        := .init
  overflow         := .wrap
  byteOrder        := .big
  dmemDomain       := [⟨0, 1073741824⟩]
  resetPc          := 0#32
  endPc            := 0xFFFFFFFC#32

/-- FREE VALUE (log entry 6). Under the policy `draw`, what an unwritten register reads as: arbitrary, fixed for that
register in one run (10_state.md R13). First argument: the run's `State.draw`. -/
opaque Config.drawnReg : Nat → RegNum → Word

/-- FREE VALUE (log entry 6). Under the policy `draw`, what a data word reads as that was never initialised nor stored:
arbitrary, fixed for that word until it is stored (20_memory.md R35). -/
opaque Config.drawnWord : Nat → Word → Word

/-- FREE VALUE (log entry 5). Under the policy `init`, "the host's `INIT_DMEM` is total on `DMEM_DOMAIN`"
(20_memory.md R35): the host's word at an address the model's list of data bytes does not hold. -/
opaque Config.hostWord : Nat → Word → Word

/-- FREE VALUE (log entry 8). The ALU result for an Operation code the source does not list: any value
(93_implementation_defined.md U4; 45_datapath_control.md R110). -/
opaque Config.aluUnlisted : BitVec 4 → Word → Word → Word

/-- FREE VALUE (log entry 8). What stands on the data memory's Read data output while MemRead is deasserted: the source
says "None." (45_datapath_control.md R102). -/
opaque Config.idleReadData : Nat → Word → Word

end Sys2Proof
end

