-- ==== Sys2Proof/Syntax.lean ====
section
/-! DEFINITION. The nine instructions (00_scope.md R1) as data, and a line of assembly (30_encoding.md R62 to R65). -/

namespace Sys2Proof

/-- The instruction set: one constructor per row of the opcode table, with the operands decode gives it
(30_encoding.md R57), in the order of the assembler syntax (R62). Every operand is the field of the word, so a term
cannot hold an operand that no encoding admits. -/
inductive Instr where
  | add (rd rs rt : RegNum)
  | sub (rd rs rt : RegNum)
  | and (rd rs rt : RegNum)
  | or  (rd rs rt : RegNum)
  | slt (rd rs rt : RegNum)
  | lw  (rt rs : RegNum) (imm : Imm16)
  | sw  (rt rs : RegNum) (imm : Imm16)
  | beq (rs rt : RegNum) (imm : Imm16)
  | j   (imm26 : Imm26)
  deriving DecidableEq, Repr

/-- The five mnemonics of the R-format class (30_encoding.md R58). -/
inductive RMnemonic where
  | add
  | sub
  | and
  | or
  | slt
  deriving DecidableEq, Repr

/-- The last operand of `beq` and `j` in assembly: the raw field as a number, or a label, that is, the address it names
(30_encoding.md R62, R64). -/
inductive Target where
  | field (imm : Int)
  | label (address : Word)
  deriving DecidableEq, Repr

/-- A line of assembly as written: register numbers and immediates are plain numbers, checked by `Asm.wellFormed`
(30_encoding.md R62, R63). There are no pseudo-instructions (R65). -/
inductive Asm where
  | rFormat (op : RMnemonic) (rd rs rt : Nat)
  | lw  (rt : Nat) (imm : Int) (rs : Nat)
  | sw  (rt : Nat) (imm : Int) (rs : Nat)
  | beq (rs rt : Nat) (target : Target)
  | j   (target : Target)
  deriving DecidableEq, Repr

end Sys2Proof
end

