-- ==== Sys2Proof/WellFormed.lean ====
section
/-! DEFINITION. Which lines of assembly are legal (30_encoding.md R62 to R64) and which configurations are admitted
(93_implementation_defined.md U16). A term of `Instr` needs no check: each operand has the width of its field. -/

namespace Sys2Proof

/-- A register is written `$0` to `$31` (30_encoding.md R63). -/
def Asm.registerOk (n : Nat) : Bool := decide (n < 32)

/-- `imm` of `lw`, `sw` and `beq` is a signed 16-bit number (30_encoding.md R62). -/
def Asm.immediateOk (imm : Int) : Bool := decide (-32768 ≤ imm) && decide (imm ≤ 32767)

/-- A raw field of `beq` is a signed 16-bit number; a label `L` of a `beq` at address `A` is legal only if `L - (A + 4)`
is a multiple of 4 in -131072 .. +131068 (30_encoding.md R62, R64; the difference modulo 2^32: log entry 10). -/
def Asm.branchTargetOk (A : Word) : Target → Bool
  | .field imm => Asm.immediateOk imm
  | .label L   =>
    let d := (L - (A + 4#32)).toInt
    decide (d % 4 = 0) && decide (-131072 ≤ d) && decide (d ≤ 131068)

/-- A raw field of `j` is a 26-bit number; a label `L` of a `j` at address `A` is legal only if `L[1:0] = 00` and
`L[31:28] = (A + 4)[31:28]` (30_encoding.md R62, R64). -/
def Asm.jumpTargetOk (A : Word) : Target → Bool
  | .field imm => decide (0 ≤ imm) && decide (imm < 67108864)
  | .label L   =>
    decide (L.extractLsb' 0 2 = 0#2) && decide (L.extractLsb' 28 4 = (A + 4#32).extractLsb' 28 4)

/-- A line of assembly that stands at address `A` is legal. -/
def Asm.wellFormed (A : Word) : Asm → Bool
  | .rFormat _ rd rs rt => Asm.registerOk rd && Asm.registerOk rs && Asm.registerOk rt
  | .lw rt imm rs       => Asm.registerOk rt && Asm.immediateOk imm && Asm.registerOk rs
  | .sw rt imm rs       => Asm.registerOk rt && Asm.immediateOk imm && Asm.registerOk rs
  | .beq rs rt target   => Asm.registerOk rs && Asm.registerOk rt && Asm.branchTargetOk A target
  | .j target           => Asm.jumpTargetOk A target

/-- A region of a domain holds multiples of 4 only, inside the 32-bit address space (20_memory.md R36). -/
def Region.admitted (r : Region) : Bool :=
  decide (r.base % 4 = 0) && decide (r.base + 4 * r.words ≤ 4294967296)

/-- A configuration is refused "in which `RESET_PC` or `END_PC` is not a multiple of 4 or a domain contains an address
that is not a multiple of 4" (93_implementation_defined.md U16). -/
def Config.admitted (c : Config) : Bool :=
  decide (c.resetPc.toNat % 4 = 0) && decide (c.endPc.toNat % 4 = 0) && c.dmemDomain.all Region.admitted

end Sys2Proof
end

