-- ==== Sys2Proof/Decode.lean ====
section
/-! DEFINITION. Bytes to words, words to instructions (30_encoding.md R50 to R60) and back: the decoder, the table of
patterns, the encoder and the assembler. -/

namespace Sys2Proof

/-! ## Bytes and words -/

/-- The word whose bytes, lowest address first, are `b0 b1 b2 b3` (20_memory.md R30). -/
def assembleWord : ByteOrder → Byte → Byte → Byte → Byte → Word
  | .big,    b0, b1, b2, b3 => b0 ++ b1 ++ b2 ++ b3
  | .little, b0, b1, b2, b3 => b3 ++ b2 ++ b1 ++ b0

/-- The byte of `v` at its address + `k` (20_memory.md R30: big-endian puts bits 31:24 at the lowest address). -/
def byteOfWord (order : ByteOrder) (v : Word) (k : Fin 4) : Byte :=
  match order with
  | .big    => v.extractLsb' (8 * (3 - k.val)) 8
  | .little => v.extractLsb' (8 * k.val) 8

/-! ## Fields (30_encoding.md R51) -/

def Word.opcode (w : Word) : BitVec 6 := w.extractLsb' 26 6
def Word.rs     (w : Word) : RegNum   := w.extractLsb' 21 5
def Word.rt     (w : Word) : RegNum   := w.extractLsb' 16 5
def Word.rd     (w : Word) : RegNum   := w.extractLsb' 11 5
def Word.shamt  (w : Word) : BitVec 5 := w.extractLsb' 6 5
def Word.funct  (w : Word) : BitVec 6 := w.extractLsb' 0 6
def Word.imm    (w : Word) : Imm16    := w.extractLsb' 0 16
def Word.imm26  (w : Word) : Imm26    := w.extractLsb' 0 26

/-! ## The decoder -/

/-- Why a word, or a list of bytes, is no instruction (30_encoding.md R59). -/
inductive DecodeError where
  /-- An opcode other than the five of 30_encoding.md R56. -/
  | unknownOpcode (opcode : BitVec 6)
  /-- Opcode 000000 with shamt not 00000 (R60). -/
  | shamtNotZero (shamt : BitVec 5)
  /-- Opcode 000000, shamt 00000, a funct other than the five of R58. -/
  | unknownFunct (funct : BitVec 6)
  /-- Fewer than the four bytes of an instruction word (R50). -/
  | truncated
  deriving DecidableEq, Repr

/-- `decode(w)` of 30_encoding.md R57: exactly one of nine instructions, or the reason why there is none. -/
def decode (w : Word) : Except DecodeError Instr :=
  if Word.opcode w = 0b000000#6 then
    if Word.shamt w = 0#5 then
      if Word.funct w = 0b100000#6 then .ok (.add (Word.rd w) (Word.rs w) (Word.rt w))
      else if Word.funct w = 0b100010#6 then .ok (.sub (Word.rd w) (Word.rs w) (Word.rt w))
      else if Word.funct w = 0b100100#6 then .ok (.and (Word.rd w) (Word.rs w) (Word.rt w))
      else if Word.funct w = 0b100101#6 then .ok (.or (Word.rd w) (Word.rs w) (Word.rt w))
      else if Word.funct w = 0b101010#6 then .ok (.slt (Word.rd w) (Word.rs w) (Word.rt w))
      else .error (.unknownFunct (Word.funct w))
    else .error (.shamtNotZero (Word.shamt w))
  else if Word.opcode w = 0b100011#6 then .ok (.lw (Word.rt w) (Word.rs w) (Word.imm w))
  else if Word.opcode w = 0b101011#6 then .ok (.sw (Word.rt w) (Word.rs w) (Word.imm w))
  else if Word.opcode w = 0b000100#6 then .ok (.beq (Word.rs w) (Word.rt w) (Word.imm w))
  else if Word.opcode w = 0b000010#6 then .ok (.j (Word.imm26 w))
  else .error (.unknownOpcode (Word.opcode w))

/-- The first instruction of a list of bytes, lowest address first, with the bytes that follow it. Every instruction
is one word of four bytes (30_encoding.md R50). -/
def decodeBytes (order : ByteOrder) : List Byte → Except DecodeError (Instr × List Byte)
  | b0 :: b1 :: b2 :: b3 :: rest =>
    match decode (assembleWord order b0 b1 b2 b3) with
    | .ok i    => .ok (i, rest)
    | .error e => .error e
  | _ => .error .truncated

/-- The instruction the decoder reads from a word whose bits are `w`, numbered as the opcode table numbers them, every
bit from `nbits` up being 0. The instruction word is the unit of the numbering, so its bytes, laid out in the default
byte order, are those of the number (log entry 11). -/
def decodeTableWord (nbits w : Nat) : Option Instr :=
  let v := BitVec.ofNat 32 (w % 2 ^ nbits)
  match decodeBytes .big [byteOfWord .big v 0, byteOfWord .big v 1, byteOfWord .big v 2, byteOfWord .big v 3] with
  | .ok (i, _) => some i
  | .error _   => none

/-! ## The table of patterns (30_encoding.md R57) -/

/-- One row of the match and mask table: a word `w` is the row's instruction iff `w & mask = pattern`. -/
structure OpcodeRow where
  mnemonic : String
  pattern  : Word
  mask     : Word
  deriving DecidableEq, Repr

/-- `w & mask = pattern`. -/
def OpcodeRow.Matches (r : OpcodeRow) (w : Word) : Prop := w &&& r.mask = r.pattern

/-- The nine rows of 30_encoding.md R57. -/
def opcodeRows : List OpcodeRow :=
  [ ⟨"add", 0x00000020#32, 0xFC0007FF#32⟩,
    ⟨"sub", 0x00000022#32, 0xFC0007FF#32⟩,
    ⟨"and", 0x00000024#32, 0xFC0007FF#32⟩,
    ⟨"or",  0x00000025#32, 0xFC0007FF#32⟩,
    ⟨"slt", 0x0000002A#32, 0xFC0007FF#32⟩,
    ⟨"lw",  0x8C000000#32, 0xFC000000#32⟩,
    ⟨"sw",  0xAC000000#32, 0xFC000000#32⟩,
    ⟨"beq", 0x10000000#32, 0xFC000000#32⟩,
    ⟨"j",   0x08000000#32, 0xFC000000#32⟩ ]

/-- The mnemonic of an instruction, lower case (30_encoding.md R62). -/
def Instr.mnemonic : Instr → String
  | .add _ _ _ => "add"
  | .sub _ _ _ => "sub"
  | .and _ _ _ => "and"
  | .or _ _ _  => "or"
  | .slt _ _ _ => "slt"
  | .lw _ _ _  => "lw"
  | .sw _ _ _  => "sw"
  | .beq _ _ _ => "beq"
  | .j _       => "j"

/-! ## The encoder -/

/-- The R-format word (30_encoding.md R52): opcode 000000, rs, rt, rd, shamt 00000, funct. -/
def encodeR (rs rt rd : RegNum) (funct : BitVec 6) : Word := 0b000000#6 ++ rs ++ rt ++ rd ++ 0#5 ++ funct

/-- The I-format word (30_encoding.md R53): opcode, rs, rt, imm. -/
def encodeI (opcode : BitVec 6) (rs rt : RegNum) (imm : Imm16) : Word := opcode ++ rs ++ rt ++ imm

/-- The J-format word (30_encoding.md R54): opcode, imm26. -/
def encodeJ (opcode : BitVec 6) (imm26 : Imm26) : Word := opcode ++ imm26

/-- The word of an instruction (30_encoding.md R52 to R58). -/
def encode : Instr → Word
  | .add rd rs rt  => encodeR rs rt rd 0b100000#6
  | .sub rd rs rt  => encodeR rs rt rd 0b100010#6
  | .and rd rs rt  => encodeR rs rt rd 0b100100#6
  | .or rd rs rt   => encodeR rs rt rd 0b100101#6
  | .slt rd rs rt  => encodeR rs rt rd 0b101010#6
  | .lw rt rs imm  => encodeI 0b100011#6 rs rt imm
  | .sw rt rs imm  => encodeI 0b101011#6 rs rt imm
  | .beq rs rt imm => encodeI 0b000100#6 rs rt imm
  | .j imm26       => encodeJ 0b000010#6 imm26

/-- The four bytes of an instruction, lowest address first. -/
def encodeBytes (order : ByteOrder) (i : Instr) : List Byte :=
  [byteOfWord order (encode i) 0, byteOfWord order (encode i) 1,
   byteOfWord order (encode i) 2, byteOfWord order (encode i) 3]

/-! ## The assembler (30_encoding.md R62 to R64) -/

/-- The `imm` field of a `beq` at address `A`: the raw field, or `((L - (A + 4)) / 4) mod 2^16` for a label `L`. -/
def branchField (A : Word) : Target → Imm16
  | .field imm => BitVec.ofInt 16 imm
  | .label L   => BitVec.ofInt 16 ((L - (A + 4#32)).toInt / 4)

/-- The `imm26` field of a `j`: the raw field, or `L[27:2]` for a label `L`. -/
def jumpField : Target → Imm26
  | .field imm => BitVec.ofInt 26 imm
  | .label L   => L.extractLsb' 2 26

/-- An R-format instruction by its mnemonic. -/
def RMnemonic.instr : RMnemonic → RegNum → RegNum → RegNum → Instr
  | .add, rd, rs, rt => .add rd rs rt
  | .sub, rd, rs, rt => .sub rd rs rt
  | .and, rd, rs, rt => .and rd rs rt
  | .or,  rd, rs, rt => .or rd rs rt
  | .slt, rd, rs, rt => .slt rd rs rt

/-- The instruction of a line of assembly at address `A`; `none` for a line that is not legal there. -/
def assemble (A : Word) (line : Asm) : Option Instr :=
  if Asm.wellFormed A line then
    match line with
    | .rFormat op rd rs rt => some (op.instr (BitVec.ofNat 5 rd) (BitVec.ofNat 5 rs) (BitVec.ofNat 5 rt))
    | .lw rt imm rs        => some (.lw (BitVec.ofNat 5 rt) (BitVec.ofNat 5 rs) (BitVec.ofInt 16 imm))
    | .sw rt imm rs        => some (.sw (BitVec.ofNat 5 rt) (BitVec.ofNat 5 rs) (BitVec.ofInt 16 imm))
    | .beq rs rt target    => some (.beq (BitVec.ofNat 5 rs) (BitVec.ofNat 5 rt) (branchField A target))
    | .j target            => some (.j (jumpField target))
  else none

end Sys2Proof
end

