-- ==== Sys2Proof/Machine/State.lean ====
section
/-! DEFINITION. The state of the machine (10_state.md R23), its faults (60_exceptions.md R131) and its reset
(10_state.md R24, 70_reset_and_hazards.md R150). -/

namespace Sys2Proof.Machine

/-- The faults of 60_exceptions.md R131, with the information each records. The hardware has no traps (R130): a fault
says that the spec gives the step no meaning. All are safe: the model stops where the hardware goes on. -/
inductive Fault where
  /-- Raised by the step before decode: `pc` = `a` is not in `IMEM_DOMAIN` (R135). Safe. -/
  | fetchFault (a : Word)
  /-- Raised by decode: the word fetched is not one of the nine patterns (R132). Safe. -/
  | illegalInstruction (pc w : Word)
  /-- Raised by `add sub and or slt lw sw beq` under `UNWRITTEN_REG_POLICY` = `fault`: a source register has never
  been written (R136). Safe. -/
  | unwrittenRegister (i : RegNum)
  /-- Raised by `add sub` under `OVERFLOW_POLICY` = `fault`: signed overflow (R137). Safe. -/
  | arithmeticOverflow (pc : Word)
  /-- Raised by `lw sw`: the effective address is not a multiple of 4 (R133). Safe. -/
  | misalignedDataAddress (pc a : Word)
  /-- Raised by `lw sw`: the aligned address is outside `DMEM_DOMAIN` (R134). Safe. -/
  | dataAccessFault (pc a : Word)
  /-- Raised by `lw` under `UNWRITTEN_REG_POLICY` = `fault`: the word was never initialised nor stored (R136). Safe. -/
  | uninitialisedMemory (pc a : Word)
  deriving DecidableEq, Repr

/-- Why the model takes no step without a fault. -/
inductive Refusal where
  /-- An instruction without a meaning; raised by no arm of `exec`. Safe. -/
  | notModelled (mnemonic : String)
  /-- Raised by the step: `pc` = `END_PC`, so the run is over and there is no step (60_exceptions.md R140; log
  entry 2). Safe. -/
  | runOver
  /-- Raised by the step: the configuration is not admitted (93_implementation_defined.md U16; log entry 2). Safe. -/
  | configNotAdmitted
  deriving DecidableEq, Repr

/-- The contents of one memory: (address, byte) pairs. An address that is not listed holds NO value (log entries 1
and 5). -/
abbrev Memory := List Host.Cell

/-- The canonical form: addresses strictly rising, each a 32-bit byte address. -/
abbrev Memory.wf (m : Memory) : Prop :=
  m.Pairwise (fun c d => c.1 < d.1) ∧ ∀ c ∈ m, c.1 < 4294967296

/-- The register file ("Banco de registos"): 32 registers of 32 bits (10_state.md R10). -/
abbrev RegFile := Vector Word 32

/-- The state: the tuple of 10_state.md R23, with the parameters beside it. -/
structure State where
  /-- The parameters of the run; no step changes them (10_state.md R23). -/
  cfg     : Config
  /-- The program counter (10_state.md R15). -/
  pc      : Word
  /-- The contents of the general registers (10_state.md R10). -/
  regs    : RegFile
  /-- The "written" mark of each register (10_state.md R13, R23). -/
  written : Vector Bool 32
  /-- The instruction memory, holding `PROGRAM` (10_state.md R17). -/
  imem    : Memory
  /-- The data memory (10_state.md R18). -/
  dmem    : Memory
  /-- The fault record: none, or the first fault raised (10_state.md R23; 60_exceptions.md R131). -/
  fault   : Option Fault
  /-- The model's own field: which of the unconstrained draws this run has (log entry 6). -/
  draw    : Nat
  deriving DecidableEq, Repr

/-- The state right after reset for a host that chooses the parameters `cfg`, `PROGRAM`, `INIT_DMEM` and `INIT_REGS`
(10_state.md R24; 70_reset_and_hazards.md R150, R153). Under the policy `init` "every register counts as written at
reset" (10_state.md R13); otherwise only a hardwired register 0 does, and the contents of the others are never read. -/
def State.boot (cfg : Config) (program initDmem : Memory) (initRegs : RegFile) (draw : Nat) : State where
  cfg     := cfg
  pc      := cfg.resetPc
  regs    := if cfg.zeroRegHardwired then initRegs.set 0 0#32 else initRegs
  written :=
    if cfg.unwritten = .init then Vector.replicate 32 true
    else (Vector.replicate 32 false).set 0 cfg.zeroRegHardwired
  imem    := program
  dmem    := initDmem
  fault   := none
  draw    := draw

/-- The machine right after reset with nothing loaded. DESIGN CHOICE (log entries 1, 3, 4, 5, 6): the parameters of
`Config.default`, no program, no data bytes, every register 0. -/
def State.reset : State :=
  State.boot Config.default [] [] (Vector.replicate 32 0#32) 0

end Sys2Proof.Machine
end

