-- ==== Sys2Proof/Machine/Ops.lean ====
section
/-! DEFINITION. The named operations over registers and memory (00_scope.md R6) and the recording of a fault. The
hardware has no exceptions to take and none to return from (60_exceptions.md R130, R141): the one thing that happens
on a fault is the model's own record. -/

namespace Sys2Proof.Machine

/-- What a step, or a part of one, answers. -/
abbrev StepResult := Host.Outcome State Fault Refusal

/-! ## Registers -/

/-- Register `i` of a register file. -/
def RegFile.get (f : RegFile) (i : RegNum) : Word := f[i.toNat]'(i.isLt)

/-- The file with register `i` holding `v`. -/
def RegFile.put (f : RegFile) (i : RegNum) (v : Word) : RegFile := f.set i.toNat v i.isLt

/-- Register `i` is hardwired to zero (10_state.md R12). -/
def State.isHardwired (s : State) (i : RegNum) : Bool := s.cfg.zeroRegHardwired && decide (i = 0#5)

/-- Register `i` counts as written: by its mark, and register 0 always while it is hardwired (10_state.md R13). -/
def State.isWritten (s : State) (i : RegNum) : Bool := s.isHardwired i || s.written[i.toNat]'(i.isLt)

/-- `x[i]`: 0 for a hardwired register, else the contents if it is written, else what the policy says
(10_state.md R12, R13). -/
def State.readReg (s : State) (i : RegNum) : Except Fault Word :=
  if s.isHardwired i then .ok 0#32
  else if s.isWritten i then .ok (RegFile.get s.regs i)
  else match s.cfg.unwritten with
    | .fault => .error (.unwrittenRegister i)
    | .draw  => .ok (Config.drawnReg s.draw i)
    | .init  => .ok (RegFile.get s.regs i)

/-- `x[i] <- v`: nothing for a hardwired register; else the register holds `v` and counts as written
(10_state.md R12, R13). -/
def State.writeReg (s : State) (i : RegNum) (v : Word) : State :=
  if s.isHardwired i then s
  else { s with regs := RegFile.put s.regs i v, written := s.written.set i.toNat true i.isLt }

/-- `pc + 4` modulo 2^32 (10_state.md R16). -/
def pcPlus4 (pc : Word) : Word := pc + 4#32

/-- `pc <- t`. -/
def State.setPc (s : State) (t : Word) : State := { s with pc := t }

/-- The end of an instruction that writes register `i` and goes on to `pc + 4`. -/
def State.finishReg (s : State) (i : RegNum) (v : Word) : State := (s.writeReg i v).setPc (pcPlus4 s.pc)

/-- Read a source register and go on with its value, or stop with the fault its read raises. -/
def State.withReg (s : State) (i : RegNum) (k : Word → StepResult) : StepResult :=
  match s.readReg i with
  | .ok v    => k v
  | .error f => .fault f

/-! ## Memories -/

/-- The byte at an address, if one is listed there. -/
def Memory.read : Memory → Nat → Option Byte
  | [], _ => none
  | (k, v) :: m, a => if k = a then some v else Memory.read m a

/-- The memory with byte `v` at address `a`. -/
def Memory.write : Memory → Nat → Byte → Memory
  | [], a, v => [(a, v)]
  | (k, w) :: m, a, v =>
    if a < k then (a, v) :: (k, w) :: m
    else if a = k then (a, v) :: m
    else (k, w) :: Memory.write m a v

/-- The address of byte `k` of the word at `a`. -/
def byteAddr (a : Word) (k : Fin 4) : Nat := (a + BitVec.ofNat 32 k.val).toNat

/-- The word at `a`, assembled from its four bytes (20_memory.md R30); none unless all four are listed. -/
def Memory.readWord (m : Memory) (order : ByteOrder) (a : Word) : Option Word :=
  match m.read (byteAddr a 0), m.read (byteAddr a 1), m.read (byteAddr a 2), m.read (byteAddr a 3) with
  | some b0, some b1, some b2, some b3 => some (assembleWord order b0 b1 b2 b3)
  | _, _, _, _ => none

/-- The memory with the bytes `a .. a+3` replaced by those of `v` (20_memory.md R34). -/
def Memory.writeWord (m : Memory) (order : ByteOrder) (a v : Word) : Memory :=
  (((m.write (byteAddr a 0) (byteOfWord order v 0)).write (byteAddr a 1) (byteOfWord order v 1)).write
    (byteAddr a 2) (byteOfWord order v 2)).write (byteAddr a 3) (byteOfWord order v 3)

/-- A memory image from words at addresses: how the host writes `PROGRAM` and `INIT_DMEM`
(70_reset_and_hazards.md R153). -/
def Memory.ofWords (order : ByteOrder) (image : List (Word × Word)) : Memory :=
  image.foldl (fun m aw => m.writeWord order aw.1 aw.2) []

/-- An address is a multiple of 4. -/
def isAligned (a : Word) : Bool := decide (a.toNat % 4 = 0)

/-- Address `a` is one of the region's word addresses. -/
def regionHolds (r : Region) (a : Nat) : Bool :=
  decide (r.base ≤ a) && decide (a < r.base + 4 * r.words) && decide ((a - r.base) % 4 = 0)

/-- `a` is in `DMEM_DOMAIN` (20_memory.md R36). -/
def State.inDmemDomain (s : State) (a : Word) : Bool := s.cfg.dmemDomain.any (fun r => regionHolds r a.toNat)

/-- `a` is in `IMEM_DOMAIN`: aligned, and `PROGRAM` gives a word there (20_memory.md R36; log entry 1). -/
def State.inImemDomain (s : State) (a : Word) : Bool :=
  isAligned a && (s.imem.readWord s.cfg.byteOrder a).isSome

/-- The checks common to `MemRead` and `MemWrite`, in their order: aligned, then in `DMEM_DOMAIN`
(20_memory.md R32, R33, R34). -/
def State.dataAddressFault (s : State) (a : Word) : Option Fault :=
  if isAligned a then
    if s.inDmemDomain a then none else some (.dataAccessFault s.pc a)
  else some (.misalignedDataAddress s.pc a)

/-- `MemRead(a, 4)` (20_memory.md R33); a word never initialised nor stored by the policy (R35). -/
def State.memRead (s : State) (a : Word) : Except Fault Word :=
  match s.dataAddressFault a with
  | some f => .error f
  | none =>
    match s.dmem.readWord s.cfg.byteOrder a with
    | some v => .ok v
    | none =>
      match s.cfg.unwritten with
      | .fault => .error (.uninitialisedMemory s.pc a)
      | .draw  => .ok (Config.drawnWord s.draw a)
      | .init  => .ok (Config.hostWord s.draw a)

/-- `MemWrite(a, 4, v)` (20_memory.md R34). -/
def State.memWrite (s : State) (a v : Word) : Except Fault State :=
  match s.dataAddressFault a with
  | some f => .error f
  | none   => .ok { s with dmem := s.dmem.writeWord s.cfg.byteOrder a v }

/-! ## The fault record -/

/-- The model records the fault; a record is never replaced (60_exceptions.md R131, R141; log entry 7). -/
def State.recordFault (s : State) (f : Fault) : State :=
  match s.fault with
  | some _ => s
  | none   => { s with fault := some f }

end Sys2Proof.Machine
end

