-- ==== Sys2Proof/Machine/Operands.lean ====
section
/-! DEFINITION. The operand forms: the sign-extended immediate, the effective address and the targets of the control
transfers (30_encoding.md R55). -/

namespace Sys2Proof.Machine

/-- `sext_32` of a 16-bit field (00_scope.md R5). -/
def sext32 (imm : Imm16) : Word := imm.signExtend 32

/-- `zext_32` of a 16-bit field (00_scope.md R5). -/
def zext32 (imm : Imm16) : Word := imm.zeroExtend 32

/-- The effective address `x[rs] + sext_32(imm)` modulo 2^32 (20_memory.md R44; 41_load_store.md R80). -/
def effectiveAddress (base : Word) (imm : Imm16) : Word := base + sext32 imm

/-- The target of a taken `beq`: `pc + 4 + (sext_32(imm) << 2)` (42_branch_jump.md R91). -/
def branchTarget (pc : Word) (imm : Imm16) : Word := pcPlus4 pc + (sext32 imm <<< 2)

/-- The target of `j`: `{(pc + 4)[31:28], imm26, 00}` (42_branch_jump.md R93). -/
def jumpTarget (pc : Word) (imm26 : Imm26) : Word := (pcPlus4 pc).extractLsb' 28 4 ++ imm26 ++ 0b00#2

end Sys2Proof.Machine
end

