-- ==== Sys2Proof/Machine/ArithLogic.lean ====
section
/-! DEFINITION. The R-format instructions: `add`, `sub`, `and`, `or`, `slt` (40_arithmetic_logic.md R70 to R76). -/

namespace Sys2Proof.Machine

/-- What the five have in common (40_arithmetic_logic.md R76): read `x[rs]`, then `x[rt]`, write the result to
`x[rd]`, go on to `pc + 4`. `overflows` says for which operands `OVERFLOW_POLICY` = `fault` stops it (R70). -/
def State.rFormat (s : State) (rd rs rt : RegNum) (overflows : Word → Word → Bool) (result : Word → Word → Word) :
    StepResult :=
  s.withReg rs fun a => s.withReg rt fun b =>
    if s.cfg.overflow = .fault ∧ overflows a b = true then .fault (.arithmeticOverflow s.pc)
    else .next (s.finishReg rd (result a b))

/-- `add` (40_arithmetic_logic.md R71). -/
def execAdd (rd rs rt : RegNum) (s : State) : StepResult :=
  s.rFormat rd rs rt addOverflows fun a b => a + b

/-- `sub` (40_arithmetic_logic.md R72). -/
def execSub (rd rs rt : RegNum) (s : State) : StepResult :=
  s.rFormat rd rs rt subOverflows fun a b => a - b

/-- `and` (40_arithmetic_logic.md R73). -/
def execAnd (rd rs rt : RegNum) (s : State) : StepResult :=
  s.rFormat rd rs rt (fun _ _ => false) fun a b => a &&& b

/-- `or` (40_arithmetic_logic.md R74). -/
def execOr (rd rs rt : RegNum) (s : State) : StepResult :=
  s.rFormat rd rs rt (fun _ _ => false) fun a b => a ||| b

/-- `slt` (40_arithmetic_logic.md R75): signed comparison, exact, 1 or 0. -/
def execSlt (rd rs rt : RegNum) (s : State) : StepResult :=
  s.rFormat rd rs rt (fun _ _ => false) fun a b => if a.toInt < b.toInt then 1#32 else 0#32

end Sys2Proof.Machine
end

