-- ==== Sys2Proof/Machine/BranchJump.lean ====
section
/-! DEFINITION. The control transfer instructions `beq` and `j` (42_branch_jump.md R90 to R95). There is no delay
slot (R90): the next instruction is the one at the new pc. -/

namespace Sys2Proof.Machine

/-- `beq` (42_branch_jump.md R91): reads `x[rs]`, then `x[rt]`; taken when the ALU's difference has Zero = 1. -/
def execBeq (rs rt : RegNum) (imm : Imm16) (s : State) : StepResult :=
  s.withReg rs fun a => s.withReg rt fun b =>
    .next (s.setPc (if aluZero (a - b) then branchTarget s.pc imm else pcPlus4 s.pc))

/-- `j` (42_branch_jump.md R93): reads no register. -/
def execJ (imm26 : Imm26) (s : State) : StepResult :=
  .next (s.setPc (jumpTarget s.pc imm26))

end Sys2Proof.Machine
end

