-- ==== Sys2Proof/Machine/LoadStore.lean ====
section
/-! DEFINITION. The memory access instructions `lw` and `sw` (41_load_store.md R80 to R82). -/

namespace Sys2Proof.Machine

/-- `lw` (41_load_store.md R81): reads `x[rs]` and the data word, writes `x[rt]`, goes on to `pc + 4`. -/
def execLw (rt rs : RegNum) (imm : Imm16) (s : State) : StepResult :=
  s.withReg rs fun base =>
    match s.memRead (effectiveAddress base imm) with
    | .error f => .fault f
    | .ok v    => .next (s.finishReg rt v)

/-- `sw` (41_load_store.md R82): reads `x[rs]`, then `x[rt]`, writes the data word, goes on to `pc + 4`. -/
def execSw (rt rs : RegNum) (imm : Imm16) (s : State) : StepResult :=
  s.withReg rs fun base => s.withReg rt fun v =>
    match s.memWrite (effectiveAddress base imm) v with
    | .error f => .fault f
    | .ok s'   => .next (s'.setPc (pcPlus4 s.pc))

end Sys2Proof.Machine
end

