-- ==== Sys2Proof/Machine/Fetch.lean ====
section
/-! DEFINITION. The start of a cycle: whether there is a step at all, the instruction fetch and the decode
(10_state.md R22; 20_memory.md R37; 60_exceptions.md R140). -/

namespace Sys2Proof.Machine

/-- A run is OVER when `pc = END_PC` at the start of a step and no fault is recorded (60_exceptions.md R140, R131). -/
def State.runOver (s : State) : Bool := s.fault.isNone && decide (s.pc = s.cfg.endPc)

/-- `IFetch(a)` (20_memory.md R37). -/
def State.iFetch (s : State) (a : Word) : Except Fault Word :=
  if isAligned a then
    match s.imem.readWord s.cfg.byteOrder a with
    | some w => .ok w
    | none   => .error (.fetchFault a)
  else .error (.fetchFault a)

/-- What comes before the fetch: a refused configuration (93_implementation_defined.md U16), a fault recorded earlier,
after which no step follows (60_exceptions.md R141), the end of the run (R140), then the word at `pc`. -/
def State.cycleWord (s : State) : Host.Outcome Word Fault Refusal :=
  if s.cfg.admitted then
    match s.fault with
    | some f => .fault f
    | none =>
      if s.runOver then .refused .runOver
      else match s.iFetch s.pc with
        | .ok w    => .next w
        | .error f => .fault f
  else .refused .configNotAdmitted

/-- Fetch, then decode (10_state.md R22): the instruction this cycle executes. -/
def State.cycleInstr (s : State) : Host.Outcome Instr Fault Refusal :=
  match s.cycleWord with
  | .next w =>
    match decode w with
    | .ok i    => .next i
    | .error _ => .fault (.illegalInstruction s.pc w)
  | .fault f   => .fault f
  | .refused r => .refused r

/-- The state with a word of `PROGRAM` at its pc, as the host loads it before the first cycle
(70_reset_and_hazards.md R153), so that the next cycle runs it: `END_PC` is moved behind the word where it would
stand on it, and a fault recorded earlier is forgotten with the run it belonged to. -/
def State.loadAtPc (s : State) (w : Word) : State :=
  { s with
    imem  := s.imem.writeWord s.cfg.byteOrder s.pc w
    cfg   := { s.cfg with endPc := if s.cfg.endPc = s.pc then pcPlus4 s.pc else s.cfg.endPc }
    fault := none }

end Sys2Proof.Machine
end

