-- ==== Sys2Proof/Machine/Step.lean ====
section
/-! DEFINITION. One clock cycle executes one instruction, completely (10_state.md R22). -/

namespace Sys2Proof.Machine

/-- One step: the instruction of this cycle, executed by its rule (10_state.md R22). -/
def step (s : State) : Host.Outcome State Fault Refusal :=
  match s.cycleInstr with
  | .next i    => exec i s
  | .fault f   => .fault f
  | .refused r => .refused r

/-- The state with the instruction of bits `w` (every bit from `nbits` up being 0) where the next step fetches. -/
def State.withFetchWord (s : State) (nbits w : Nat) : State :=
  s.loadAtPc (BitVec.ofNat 32 (w % 2 ^ nbits))

end Sys2Proof.Machine
end

