-- ==== Sys2Proof/Machine/Datapath.lean ====
section
/-! DEFINITION. The hardware at signal level (45_datapath_control.md R100 to R122): the main control, the ALU control,
the ALU, the multiplexers and one clock cycle. It uses none of the instructions' own rules: that the two levels agree
(R119) is a statement. -/

namespace Sys2Proof.Machine

/-! ## The main control (R101 to R106) -/

/-- An entry of the control table: deasserted, asserted, or don't care (R102, R103). -/
inductive Signal where
  | off
  | on
  | x
  deriving DecidableEq, Repr

/-- The outputs of the main control (R101, R105): as entries of the table (`Signal`), or as the values on the wires
(`Bool`). -/
structure Control (α : Type) where
  regDst   : α
  aluSrc   : α
  memToReg : α
  regWrite : α
  memRead  : α
  memWrite : α
  branch   : α
  aluOp1   : α
  aluOp0   : α
  jump     : α
  deriving DecidableEq, Repr

/-- The control table: R103 for the four classes of the source, R105 for `j`; no output is given for any other opcode
(R106). -/
def mainControl (opcode : BitVec 6) : Option (Control Signal) :=
  if opcode = 0b000000#6 then some ⟨.on, .off, .off, .on, .off, .off, .off, .on, .off, .off⟩
  else if opcode = 0b100011#6 then some ⟨.off, .on, .on, .on, .on, .off, .off, .off, .off, .off⟩
  else if opcode = 0b101011#6 then some ⟨.x, .on, .x, .off, .off, .on, .off, .off, .off, .off⟩
  else if opcode = 0b000100#6 then some ⟨.x, .off, .x, .off, .off, .off, .on, .off, .on, .off⟩
  else if opcode = 0b000010#6 then some ⟨.x, .x, .x, .off, .off, .off, .x, .x, .x, .on⟩
  else none

/-- The value on a wire: a don't-care carries whatever `filling` says. -/
def Signal.wire (filling : Bool) : Signal → Bool
  | .off => false
  | .on  => true
  | .x   => filling

/-- The values on the ten wires, with `filling` for the don't-cares. "A signal-level model may give them any value; the
result must not depend on it" (93_implementation_defined.md U10; log entry 9). -/
def Control.wires (c : Control Signal) (filling : Control Bool) : Control Bool where
  regDst   := c.regDst.wire filling.regDst
  aluSrc   := c.aluSrc.wire filling.aluSrc
  memToReg := c.memToReg.wire filling.memToReg
  regWrite := c.regWrite.wire filling.regWrite
  memRead  := c.memRead.wire filling.memRead
  memWrite := c.memWrite.wire filling.memWrite
  branch   := c.branch.wire filling.branch
  aluOp1   := c.aluOp1.wire filling.aluOp1
  aluOp0   := c.aluOp0.wire filling.aluOp0
  jump     := c.jump.wire filling.jump

/-! ## The ALU control (R107 to R109) and the ALU (R110) -/

/-- The four equations of R109, Operation3 first. -/
def aluControl (aluOp1 aluOp0 : Bool) (funct : BitVec 6) : BitVec 4 :=
  let f0 := funct.getLsbD 0
  let f1 := funct.getLsbD 1
  let f2 := funct.getLsbD 2
  let f3 := funct.getLsbD 3
  let operation2 := aluOp0 || (aluOp1 && f1)
  let operation1 := !aluOp1 || !f2
  let operation0 := aluOp1 && (f3 || f0)
  BitVec.ofBool false ++ BitVec.ofBool operation2 ++ BitVec.ofBool operation1 ++ BitVec.ofBool operation0

/-- A row of the truth table of R108; `none` is an X. -/
structure AluControlRow where
  aluOp1    : Option Bool
  aluOp0    : Option Bool
  f3        : Option Bool
  f2        : Option Bool
  f1        : Option Bool
  f0        : Option Bool
  operation : BitVec 4
  deriving DecidableEq, Repr

/-- The truth table of R108 (F5 and F4 are X in every row). -/
def aluControlTable : List AluControlRow :=
  [ ⟨some false, some false, none, none, none, none, 0b0010#4⟩,
    ⟨none, some true, none, none, none, none, 0b0110#4⟩,
    ⟨some true, none, some false, some false, some false, some false, 0b0010#4⟩,
    ⟨some true, none, some false, some false, some true, some false, 0b0110#4⟩,
    ⟨some true, none, some false, some true, some false, some false, 0b0000#4⟩,
    ⟨some true, none, some false, some true, some false, some true, 0b0001#4⟩,
    ⟨some true, none, some true, some false, some true, some false, 0b0111#4⟩ ]

/-- An entry of the table admits a bit: an X admits both. -/
def admitsBit (entry : Option Bool) (b : Bool) : Bool :=
  match entry with
  | none   => true
  | some v => v == b

/-- The row applies to these inputs. -/
def AluControlRow.applies (r : AluControlRow) (aluOp1 aluOp0 : Bool) (funct : BitVec 6) : Bool :=
  admitsBit r.aluOp1 aluOp1 && admitsBit r.aluOp0 aluOp0 && admitsBit r.f3 (funct.getLsbD 3) &&
    admitsBit r.f2 (funct.getLsbD 2) && admitsBit r.f1 (funct.getLsbD 1) && admitsBit r.f0 (funct.getLsbD 0)

/-- The ALU result (R110); a free value for an Operation code the source does not list. -/
def aluResult (operation : BitVec 4) (a b : Word) : Word :=
  if operation = 0b0000#4 then a &&& b
  else if operation = 0b0001#4 then a ||| b
  else if operation = 0b0010#4 then a + b
  else if operation = 0b0110#4 then a - b
  else if operation = 0b0111#4 then (if a.toInt < b.toInt then 1#32 else 0#32)
  else Config.aluUnlisted operation a b

/-! ## The wires (R111 to R117) -/

/-- Multiplexer: input 0 or input 1. -/
def mux {α : Type} (select : Bool) (input0 input1 : α) : α := if select then input1 else input0

/-- The first read port's value reaches a state element: the ALU result is written to a register, used as an address or
decides a branch, and the jump address does not replace it all (R121). -/
def Control.port1Counts (c : Control Bool) : Bool := !c.jump && (c.regWrite || c.memWrite || c.branch)

/-- The second read port's value reaches a state element: as second ALU operand (ALUSrc = 0) of a result that is used,
or as store data (R121). -/
def Control.port2Counts (c : Control Bool) : Bool :=
  !c.jump && (c.memWrite || (!c.aluSrc && (c.regWrite || c.branch)))

/-- A read port: a read that counts is `x[i]`, with its fault (R121); otherwise the port carries some value, and the
value is not a read (10_state.md R13; 90_conflicts.md C8; log entry 8). -/
def State.readPort (s : State) (counts : Bool) (i : RegNum) : Except Fault Word :=
  match s.readReg i with
  | .ok v    => .ok v
  | .error f => if counts then .error f else .ok (Config.drawnReg s.draw i)

/-- The data memory's Read data output (R117). -/
def State.readData (s : State) (memRead : Bool) (address : Word) : Except Fault Word :=
  if memRead then s.memRead address else .ok (Config.idleReadData s.draw address)

/-- The data memory at the end of the cycle (R117). -/
def State.writeData (s : State) (memWrite : Bool) (address v : Word) : Except Fault State :=
  if memWrite then s.memWrite address v else .ok s

/-- Next pc (R115). -/
def nextPc (c : Control Bool) (instr pc : Word) (zero : Bool) : Word :=
  let pc4     := pc + 4#32
  let btarget := pc4 + (sext32 (Word.imm instr) <<< 2)
  let jaddr   := pc4.extractLsb' 28 4 ++ Word.imm26 instr ++ 0b00#2
  mux c.jump (mux (c.branch && zero) pc4 btarget) jaddr

/-- One clock cycle for the word `instr` (R118), with the values `c` on the control wires. -/
def datapathCycle (c : Control Bool) (instr : Word) (s : State) : StepResult :=
  match s.readPort c.port1Counts (Word.rs instr) with
  | .error f => .fault f
  | .ok rd1 =>
    match s.readPort c.port2Counts (Word.rt instr) with
    | .error f => .fault f
    | .ok rd2 =>
      let operand2 := mux c.aluSrc rd2 (sext32 (Word.imm instr))
      let r        := aluResult (aluControl c.aluOp1 c.aluOp0 (Word.funct instr)) rd1 operand2
      match s.readData c.memRead r with
      | .error f => .fault f
      | .ok mdata =>
        match s.writeData c.memWrite r rd2 with
        | .error f => .fault f
        | .ok s1 =>
          let wreg  := mux c.regDst (Word.rt instr) (Word.rd instr)
          let wdata := mux c.memToReg r mdata
          let s2    := if c.regWrite then s1.writeReg wreg wdata else s1
          .next (s2.setPc (nextPc c instr s.pc (aluZero r)))

/-- One step at signal level: fetch, decode (a word that is no instruction does not reach the control unit, R106), then
the cycle. `filling` is what the don't-care outputs carry. -/
def datapathStep (filling : Control Bool) (s : State) : StepResult :=
  match s.cycleWord with
  | .next instr =>
    match decode instr, mainControl (Word.opcode instr) with
    | .ok _, some c => datapathCycle (c.wires filling) instr s
    | _, _          => .fault (.illegalInstruction s.pc instr)
  | .fault f   => .fault f
  | .refused r => .refused r

end Sys2Proof.Machine
end

