-- ==== Sys2Proof/Machine/Run.lean ====
section
/-! DEFINITION. A run with the model's own record of faults (60_exceptions.md R131, R140, R141), and how many cycles it
takes (70_reset_and_hazards.md R163). -/

namespace Sys2Proof.Machine

/-- The state after one clock cycle: the next state, or the same state with the fault recorded, or the same state where
there is no step (60_exceptions.md R131: nothing of the faulting instruction has happened). -/
def State.cycle (s : State) : State :=
  match step s with
  | .next t    => t
  | .fault f   => s.recordFault f
  | .refused _ => s

/-- The state after `n` clock cycles: one instruction each (70_reset_and_hazards.md R163). -/
def State.cycles : Nat → State → State
  | 0, s     => s
  | n + 1, s => State.cycles n s.cycle

end Sys2Proof.Machine
end

