-- ==== Sys2Proof/Machine/Timing.lean ====
section
/-! DEFINITION. The latency figures of the source (70_reset_and_hazards.md R160 to R162), in picoseconds. They are
constants beside the machine: no step depends on them (R163, D22; log entry 12). -/

namespace Sys2Proof.Machine

/-- The columns of the table of R162. -/
inductive Phase where
  | instructionFetch
  | registerRead
  | aluOperation
  | dataAccess
  | registerWrite
  deriving DecidableEq, Repr

/-- The latency of the block a phase uses: memories 200 ps, ALU 200 ps, register file 100 ps (R160). -/
def Phase.latency : Phase → Nat
  | .instructionFetch => 200
  | .registerRead     => 100
  | .aluOperation     => 200
  | .dataAccess       => 200
  | .registerWrite    => 100

/-- The phases of an instruction's row of R162; the source gives no row for `j`. -/
def timedPhases : Instr → Option (List Phase)
  | .lw _ _ _  => some [.instructionFetch, .registerRead, .aluOperation, .dataAccess, .registerWrite]
  | .sw _ _ _  => some [.instructionFetch, .registerRead, .aluOperation, .dataAccess]
  | .add _ _ _ => some [.instructionFetch, .registerRead, .aluOperation, .registerWrite]
  | .sub _ _ _ => some [.instructionFetch, .registerRead, .aluOperation, .registerWrite]
  | .and _ _ _ => some [.instructionFetch, .registerRead, .aluOperation, .registerWrite]
  | .or _ _ _  => some [.instructionFetch, .registerRead, .aluOperation, .registerWrite]
  | .slt _ _ _ => some [.instructionFetch, .registerRead, .aluOperation, .registerWrite]
  | .beq _ _ _ => some [.instructionFetch, .registerRead, .aluOperation]
  | .j _       => none

/-- The column "Total time" of R162: the length of the critical path inside the cycle. -/
def totalTime (i : Instr) : Option Nat := (timedPhases i).map fun ps => (ps.map Phase.latency).sum

/-- The clock period covers the longest critical path: `T >= 800 ps` (R162). -/
def minimumClockPeriod : Nat := 800

end Sys2Proof.Machine
end

