-- ==== Sys2Proof/Safety.lean ====
section
/-! DEFINITION. The terms claims are stated in: the invariant, what a register or memory write leaves, and what a safe
run is. -/

namespace Sys2Proof.Machine

/-- Every byte the data memory lists belongs to a word of `DMEM_DOMAIN` all of whose bytes are listed: the data memory
is "defined on `DMEM_DOMAIN`" and "accessed only in aligned 32-bit words" (10_state.md R18). -/
def State.DmemWhole (s : State) : Prop :=
  ∀ cell ∈ s.dmem, ∃ a : Word, isAligned a = true ∧ s.inDmemDomain a = true ∧
    (∃ k : Fin 4, cell.1 = byteAddr a k) ∧ (s.dmem.readWord s.cfg.byteOrder a).isSome = true

/-- The invariant of the machine. -/
structure State.Inv (s : State) : Prop where
  /-- The configuration is admitted (93_implementation_defined.md U16). -/
  admitted  : s.cfg.admitted = true
  /-- "`pc` is always a multiple of 4" (10_state.md R15). -/
  pcAligned : isAligned s.pc = true
  /-- The instruction memory is in canonical form. -/
  imemWf    : s.imem.wf
  /-- The data memory is in canonical form. -/
  dmemWf    : s.dmem.wf
  /-- The data memory holds whole words of its domain (10_state.md R18). -/
  dmemWhole : s.DmemWhole
  /-- Under the policy `init` "every register counts as written at reset" (10_state.md R13). -/
  initMarks : s.cfg.unwritten = .init → ∀ i, s.isWritten i = true

/-- The registers of `t` are those of `s` after `x[i] <- v`: a hardwired register reads 0, register `i` reads `v`, and
every other register reads as before, the fault of an unwritten one included (10_state.md R12, R13, R14). -/
def RegsAfterWrite (s t : State) (i : RegNum) (v : Word) : Prop :=
  ∀ k, t.readReg k = if s.isHardwired k then .ok 0#32 else if k = i then .ok v else s.readReg k

/-- Registers and written marks of `t` are those of `s`, every one (10_state.md R14). -/
def SameRegs (s t : State) : Prop :=
  t.regs = s.regs ∧ t.written = s.written ∧ ∀ k, t.readReg k = s.readReg k

/-- Every byte of the data memory reads as before. -/
def SameDmem (s t : State) : Prop := ∀ a, t.dmem.read a = s.dmem.read a

/-- Everything no instruction writes is unchanged: the parameters, the instruction memory, the fault record and the
draw (10_state.md R17, R23). -/
def SameRest (s t : State) : Prop := t.cfg = s.cfg ∧ t.imem = s.imem ∧ t.fault = s.fault ∧ t.draw = s.draw

/-- The registers an instruction reads (10_state.md R14). -/
def Instr.reads : Instr → List RegNum
  | .add _ rs rt => [rs, rt]
  | .sub _ rs rt => [rs, rt]
  | .and _ rs rt => [rs, rt]
  | .or _ rs rt  => [rs, rt]
  | .slt _ rs rt => [rs, rt]
  | .lw _ rs _   => [rs]
  | .sw rt rs _  => [rs, rt]
  | .beq rs rt _ => [rs, rt]
  | .j _         => []

/-- The register an instruction writes, if any (10_state.md R14). -/
def Instr.writes : Instr → Option RegNum
  | .add rd _ _ => some rd
  | .sub rd _ _ => some rd
  | .and rd _ _ => some rd
  | .or rd _ _  => some rd
  | .slt rd _ _ => some rd
  | .lw rt _ _  => some rt
  | .sw _ _ _   => none
  | .beq _ _ _  => none
  | .j _        => none

/-- `t` is `s` but for the contents and marks of registers outside `keep`. -/
def AgreeOn (keep : List RegNum) (s t : State) : Prop :=
  t = { s with regs := t.regs, written := t.written } ∧
    ∀ k ∈ keep, RegFile.get t.regs k = RegFile.get s.regs k ∧ t.isWritten k = s.isWritten k

/-- Instruction `i` completes in `s`, writing `v` to register `r` and going on to `pc + 4`: registers otherwise, the
data memory and the rest as before. -/
def CompletesWriting (i : Instr) (s : State) (r : RegNum) (v : Word) : Prop :=
  ∃ t, exec i s = .next t ∧ t.pc = s.pc + 4#32 ∧ RegsAfterWrite s t r v ∧ SameDmem s t ∧ SameRest s t

/-- Instruction `i` completes in `s` by going on at `target` and does nothing else. -/
def CompletesAt (i : Instr) (s : State) (target : Word) : Prop :=
  ∃ t, exec i s = .next t ∧ t.pc = target ∧ SameRegs s t ∧ SameDmem s t ∧ SameRest s t

/-- A register that no read has a specified value for stops its readers: it has never been written and the policy is
`fault` (10_state.md R13; 60_exceptions.md R136). -/
def State.Unreadable (s : State) (i : RegNum) : Prop := s.isWritten i = false ∧ s.cfg.unwritten = .fault

/-- The true sum of the operands, read as signed, is no 32-bit signed number (40_arithmetic_logic.md R70). -/
def SumUnrepresentable (a b : Word) : Prop := a.toInt + b.toInt < -2147483648 ∨ 2147483647 < a.toInt + b.toInt

/-- The true difference of the operands, read as signed, is no 32-bit signed number (40_arithmetic_logic.md R70). -/
def DifferenceUnrepresentable (a b : Word) : Prop :=
  a.toInt - b.toInt < -2147483648 ∨ 2147483647 < a.toInt - b.toInt

/-- The step takes place: it answers a next state. -/
def State.Steps (s : State) : Prop := ∃ t, step s = .next t

/-- A safe run of `n` cycles: none of its states records a fault (60_exceptions.md R131). -/
def State.SafeFor (s : State) (n : Nat) : Prop := ∀ k, k ≤ n → (State.cycles k s).fault = none

end Sys2Proof.Machine
end

