-- ==== Sys2Proof/Certificates/Slice0/Obligations.lean ====
section
/-! DEFINITION. The statements for the provers. Each docstring names the rule of the spec it formalises; a clause that
rests on the spec's own decision names the decision (92_eei_decisions.md), one that rests on the model's choice names
the log entry. -/

open Sys2Proof Sys2Proof.Machine

/-! ## Encoding -/

/-- The encodings and the illegal words of 95_test_vectors.md 2.1: one word of each instruction, and words that
30_encoding.md R59 makes illegal, the all-zero word among them. -/
def Obligations.DecodesSpecWords : Prop :=
  decode 0x00221820#32 = .ok (.add 3#5 1#5 2#5) ∧ decode 0x00221822#32 = .ok (.sub 3#5 1#5 2#5) ∧
  decode 0x00221824#32 = .ok (.and 3#5 1#5 2#5) ∧ decode 0x00221825#32 = .ok (.or 3#5 1#5 2#5) ∧
  decode 0x0041182A#32 = .ok (.slt 3#5 2#5 1#5) ∧ decode 0x8C418000#32 = .ok (.lw 1#5 2#5 0x8000#16) ∧
  decode 0xAC22FFFC#32 = .ok (.sw 2#5 1#5 0xFFFC#16) ∧ decode 0x1022FFFE#32 = .ok (.beq 1#5 2#5 0xFFFE#16) ∧
  decode 0x0BFFFFFF#32 = .ok (.j 0x3FFFFFF#26) ∧
  decode 0x00000000#32 = .error (.unknownFunct 0#6) ∧ decode 0x00221821#32 = .error (.unknownFunct 0b100001#6) ∧
  decode 0x00221860#32 = .error (.shamtNotZero 1#5) ∧ decode 0x0C000000#32 = .error (.unknownOpcode 0b000011#6) ∧
  decode 0xFFFFFFFF#32 = .error (.unknownOpcode 0b111111#6)

/-- Decode and encode agree (30_encoding.md R52 to R58): every instruction, with every operand the encoding admits, is
what its own word, and its own four bytes in either byte order, decode to. -/
def Obligations.DecodeOfEncode : Prop :=
  ∀ i : Instr, decode (encode i) = .ok i ∧
    ∀ (order : ByteOrder) (rest : List Byte), decodeBytes order (encodeBytes order i ++ rest) = .ok (i, rest)

/-- Each legal word has one meaning and each instruction one word (30_encoding.md R57; shamt 00000 by decision D14). -/
def Obligations.EncodeOfDecode : Prop := ∀ (w : Word) (i : Instr), decode w = .ok i → encode i = w

/-- 30_encoding.md R57, whole: a word that matches a row of the match and mask table is that row's instruction with the
fields at their bit positions; a word that matches none raises `IllegalInstruction(pc, w)`; no word matches two rows. -/
def Obligations.DecodeByPatterns : Prop :=
  ∀ w : Word,
    (w &&& 0xFC0007FF#32 = 0x00000020#32 →
      decode w = .ok (.add (w.extractLsb' 11 5) (w.extractLsb' 21 5) (w.extractLsb' 16 5))) ∧
    (w &&& 0xFC0007FF#32 = 0x00000022#32 →
      decode w = .ok (.sub (w.extractLsb' 11 5) (w.extractLsb' 21 5) (w.extractLsb' 16 5))) ∧
    (w &&& 0xFC0007FF#32 = 0x00000024#32 →
      decode w = .ok (.and (w.extractLsb' 11 5) (w.extractLsb' 21 5) (w.extractLsb' 16 5))) ∧
    (w &&& 0xFC0007FF#32 = 0x00000025#32 →
      decode w = .ok (.or (w.extractLsb' 11 5) (w.extractLsb' 21 5) (w.extractLsb' 16 5))) ∧
    (w &&& 0xFC0007FF#32 = 0x0000002A#32 →
      decode w = .ok (.slt (w.extractLsb' 11 5) (w.extractLsb' 21 5) (w.extractLsb' 16 5))) ∧
    (w &&& 0xFC000000#32 = 0x8C000000#32 →
      decode w = .ok (.lw (w.extractLsb' 16 5) (w.extractLsb' 21 5) (w.extractLsb' 0 16))) ∧
    (w &&& 0xFC000000#32 = 0xAC000000#32 →
      decode w = .ok (.sw (w.extractLsb' 16 5) (w.extractLsb' 21 5) (w.extractLsb' 0 16))) ∧
    (w &&& 0xFC000000#32 = 0x10000000#32 →
      decode w = .ok (.beq (w.extractLsb' 21 5) (w.extractLsb' 16 5) (w.extractLsb' 0 16))) ∧
    (w &&& 0xFC000000#32 = 0x08000000#32 → decode w = .ok (.j (w.extractLsb' 0 26))) ∧
    ((∀ r ∈ opcodeRows, w &&& r.mask ≠ r.pattern) →
      (∃ e, decode w = .error e) ∧ ∀ s : State, s.cycleWord = .next w → step s = .fault (.illegalInstruction s.pc w)) ∧
    (∀ r ∈ opcodeRows, ∀ r' ∈ opcodeRows, w &&& r.mask = r.pattern → w &&& r'.mask = r'.pattern → r = r')

/-- 60_exceptions.md R132: `IllegalInstruction(pc, w)` for exactly the words with an unknown opcode, opcode 000000 with
an unknown funct, or opcode 000000 with a non-zero shamt (decision D14). -/
def Obligations.IllegalInstructionExactly : Prop :=
  ∀ (s : State) (w : Word), s.cycleWord = .next w →
    (step s = .fault (.illegalInstruction s.pc w) ↔
      w.extractLsb' 26 6 ∉ [0b000000#6, 0b100011#6, 0b101011#6, 0b000100#6, 0b000010#6] ∨
      (w.extractLsb' 26 6 = 0b000000#6 ∧
        w.extractLsb' 0 6 ∉ [0b100000#6, 0b100010#6, 0b100100#6, 0b100101#6, 0b101010#6]) ∨
      (w.extractLsb' 26 6 = 0b000000#6 ∧ w.extractLsb' 6 5 ≠ 0#5))

/-- 30_encoding.md R64 (which the spec marks as derived): a legal label is where the assembled `beq`, taken, and the
assembled `j` go. The difference modulo 2^32 is log entry 10. -/
def Obligations.LabelsReachTheirAddress : Prop :=
  ∀ A L : Word,
    (∀ rs rt : Nat, Asm.wellFormed A (.beq rs rt (.label L)) = true →
      ∃ imm, assemble A (.beq rs rt (.label L)) = some (.beq (BitVec.ofNat 5 rs) (BitVec.ofNat 5 rt) imm) ∧
        branchTarget A imm = L) ∧
    (Asm.wellFormed A (.j (.label L)) = true →
      ∃ imm26, assemble A (.j (.label L)) = some (.j imm26) ∧ jumpTarget A imm26 = L)

/-! ## The step -/

/-- A step runs the decoded instruction (10_state.md R22; 20_memory.md R37): when the configuration is admitted, no
fault is recorded, the pc is a multiple of 4 and not `END_PC`, and the four bytes of the instruction memory at the pc
decode to `i`, the step is `exec i`, with nothing around it. -/
def Obligations.StepRunsDecodedInstruction : Prop :=
  ∀ (s : State) (b0 b1 b2 b3 : Byte) (i : Instr),
    s.cfg.admitted = true → s.fault = none → s.pc ≠ s.cfg.endPc → s.pc.toNat % 4 = 0 →
    s.imem.read s.pc.toNat = some b0 → s.imem.read (s.pc.toNat + 1) = some b1 →
    s.imem.read (s.pc.toNat + 2) = some b2 → s.imem.read (s.pc.toNat + 3) = some b3 →
    decodeBytes s.cfg.byteOrder [b0, b1, b2, b3] = .ok (i, []) → step s = exec i s

/-- The host's load of one word (70_reset_and_hazards.md R153; log entry 1): the next step runs exactly that word, and
nothing but the instruction memory, `END_PC` and the fault record is touched. -/
def Obligations.LoadedWordIsRun : Prop :=
  ∀ (s : State) (w : Word), s.cfg.admitted = true → s.pc.toNat % 4 = 0 →
    let s' := s.withFetchWord 32 w.toNat
    (step s' = match decode w with
      | .ok i    => exec i s'
      | .error _ => .fault (.illegalInstruction s.pc w)) ∧
    s'.pc = s.pc ∧ s'.regs = s.regs ∧ s'.written = s.written ∧ s'.dmem = s.dmem ∧
    ∀ a, (∀ k : Fin 4, a ≠ s.pc.toNat + k.val) → s'.imem.read a = s.imem.read a

/-- 60_exceptions.md R135: `FetchFault` exactly when the pc is neither `END_PC` nor in `IMEM_DOMAIN`. `IMEM_DOMAIN` is
the set of aligned addresses the loaded program gives all four bytes (log entry 1). -/
def Obligations.FetchFaultExactly : Prop :=
  ∀ s : State, s.cfg.admitted = true → s.fault = none →
    (step s = .fault (.fetchFault s.pc) ↔
      s.pc ≠ s.cfg.endPc ∧
        ¬ (s.pc.toNat % 4 = 0 ∧ ∀ k : Fin 4, (s.imem.read (s.pc.toNat + k.val)).isSome = true))

/-- 60_exceptions.md R140: at `pc = END_PC` there is no step and the state is final. That the model answers a refusal
there is log entry 2. -/
def Obligations.NoStepAtEndPc : Prop :=
  ∀ s : State, s.cfg.admitted = true → s.fault = none → s.pc = s.cfg.endPc →
    step s = .refused .runOver ∧ ∀ n, State.cycles n s = s

/-- 93_implementation_defined.md U16: a configuration in which `RESET_PC`, `END_PC` or an address of `DMEM_DOMAIN` is
no multiple of 4 is refused (log entry 2), and one without such an address, inside the address space, is not. -/
def Obligations.MisalignedConfigurationRefused : Prop :=
  ∀ s : State,
    ((s.cfg.resetPc.toNat % 4 ≠ 0 ∨ s.cfg.endPc.toNat % 4 ≠ 0 ∨ ∃ r ∈ s.cfg.dmemDomain, r.base % 4 ≠ 0) →
      step s = .refused .configNotAdmitted) ∧
    (s.cfg.resetPc.toNat % 4 = 0 → s.cfg.endPc.toNat % 4 = 0 →
      (∀ r ∈ s.cfg.dmemDomain, r.base % 4 = 0 ∧ r.base + 4 * r.words ≤ 2 ^ 32) →
      step s ≠ .refused .configNotAdmitted)

/-- 60_exceptions.md R131: a step that faults has no next state; nothing of the instruction has happened and the fault
is recorded; the record is never cleared, and the run is not final and never becomes final. The model's own choices:
that the clock cycle, and not the step, writes the record (log entry 7), and the clause for a state whose record is
already set, that its step answers the recorded fault again and its cycle leaves it as it is (log entry 2). -/
def Obligations.FaultIsRecordedForever : Prop :=
  ∀ (s : State) (f : Fault), step s = .fault f →
    (s.fault = none → s.cycle = { s with fault := some f }) ∧
    (∀ g, s.fault = some g → f = g ∧ s.cycle = s) ∧
    ∀ n, State.cycles n s.cycle = s.cycle ∧ (State.cycles n s.cycle).runOver = false

/-- Every step keeps the invariant: the configuration is admitted, "`pc` is always a multiple of 4" (10_state.md R15),
both memories keep their canonical form, the data memory holds whole words of `DMEM_DOMAIN` (R18), and under the policy
`init` every register counts as written (R13). -/
def Obligations.StepKeepsInv : Prop := ∀ s t : State, s.Inv → step s = .next t → t.Inv

/-- The invariant holds at reset (the reset configuration is the model's choice: log entries 1, 3, 4, 5). -/
def Obligations.InvAtReset : Prop := State.reset.Inv

/-- The invariant holds at every reset: for every admitted configuration, every program and every data image the host
writes as words at distinct aligned addresses of the domain (10_state.md R24; 70_reset_and_hazards.md R150, R153). -/
def Obligations.InvAtBoot : Prop :=
  ∀ (cfg : Config) (program image : List (Word × Word)) (regs : RegFile) (n : Nat), cfg.admitted = true →
    (∀ aw ∈ image, aw.1.toNat % 4 = 0 ∧ ∃ r ∈ cfg.dmemDomain,
      r.base ≤ aw.1.toNat ∧ aw.1.toNat < r.base + 4 * r.words) →
    (State.boot cfg (Memory.ofWords cfg.byteOrder program) (Memory.ofWords cfg.byteOrder image) regs n).Inv

/-- What the host writes is what the machine reads (70_reset_and_hazards.md R153, 20_memory.md R30): every word of an
image with distinct aligned addresses reads back, and no other byte is listed. -/
def Obligations.HostImageReadsBack : Prop :=
  ∀ (order : ByteOrder) (image : List (Word × Word)), (image.map Prod.fst).Nodup →
    (∀ aw ∈ image, aw.1.toNat % 4 = 0) →
    (∀ aw ∈ image, (Memory.ofWords order image).readWord order aw.1 = some aw.2) ∧
    ∀ a : Nat, (∀ aw ∈ image, ∀ k : Fin 4, a ≠ aw.1.toNat + k.val) → (Memory.ofWords order image).read a = none

/-- 10_state.md R24: what reset leaves, for every choice of the host's parameters and images: the pc, register 0, the
other registers and the data words under each policy, the memories, and no fault recorded. The data word no image holds
is the model's free value under `draw` and `init` (log entries 5, 6). -/
def Obligations.ResetLeaves : Prop :=
  ∀ (cfg : Config) (program initDmem : Memory) (initRegs : RegFile) (n : Nat),
    let s := State.boot cfg program initDmem initRegs n
    s.pc = cfg.resetPc ∧ s.imem = program ∧ s.dmem = initDmem ∧ s.fault = none ∧ s.cfg = cfg ∧
    (cfg.zeroRegHardwired = true → s.readReg 0#5 = .ok 0#32) ∧
    (∀ i, ¬ (cfg.zeroRegHardwired = true ∧ i = 0#5) →
      (cfg.unwritten = .init → s.readReg i = .ok (RegFile.get initRegs i)) ∧
      (cfg.unwritten = .fault → s.readReg i = .error (.unwrittenRegister i)) ∧
      (cfg.unwritten = .draw → s.readReg i = .ok (Config.drawnReg n i))) ∧
    (∀ a : Word, a.toNat % 4 = 0 → s.inDmemDomain a = true →
      (∀ v, initDmem.readWord cfg.byteOrder a = some v → s.memRead a = .ok v) ∧
      (initDmem.readWord cfg.byteOrder a = none →
        (cfg.unwritten = .fault → s.memRead a = .error (.uninitialisedMemory s.pc a)) ∧
        (cfg.unwritten ≠ .fault → ∃ v, s.memRead a = .ok v)))

/-- The reset the host's interface runs from: the model's own choices (log entries 1, 3, 4, 5). Every register can be
read and reads 0, every aligned data address can be read, no program is loaded, so the first step faults at the fetch. -/
def Obligations.ResetChoices : Prop :=
  State.reset.pc = 0#32 ∧ (∀ i, State.reset.readReg i = .ok 0#32) ∧
  (∀ a : Word, a.toNat % 4 = 0 → ∃ v, State.reset.memRead a = .ok v) ∧
  step State.reset = .fault (.fetchFault 0#32)

/-! ## Registers -/

/-- 10_state.md R12: with `ZERO_REG_HARDWIRED` = true register 0 reads 0 at all times and a write to it changes nothing,
an instruction whose destination is register 0 being otherwise executed in full (`lw` still accesses the memory and can
still fault); with false it is an ordinary register (decision D3). -/
def Obligations.RegisterZero : Prop :=
  (∀ s : State, s.cfg.zeroRegHardwired = true →
    s.readReg 0#5 = .ok 0#32 ∧ (∀ v, s.writeReg 0#5 v = s) ∧
    (∀ rs rt a b, s.readReg rs = .ok a → s.readReg rt = .ok b → s.cfg.overflow = .wrap →
      ∀ i ∈ [Instr.add 0#5 rs rt, .sub 0#5 rs rt, .and 0#5 rs rt, .or 0#5 rs rt, .slt 0#5 rs rt],
        exec i s = .next { s with pc := s.pc + 4#32 }) ∧
    (∀ rs imm base, s.readReg rs = .ok base →
      (∀ f, s.memRead (base + imm.signExtend 32) = .error f → exec (.lw 0#5 rs imm) s = .fault f) ∧
      (∀ v, s.memRead (base + imm.signExtend 32) = .ok v →
        exec (.lw 0#5 rs imm) s = .next { s with pc := s.pc + 4#32 }))) ∧
  (∀ s : State, s.cfg.zeroRegHardwired = false → ∀ v,
    (s.writeReg 0#5 v).readReg 0#5 = .ok v ∧ ∀ k, k ≠ 0#5 → (s.writeReg 0#5 v).readReg k = s.readReg k)

/-- A register write (00_scope.md R6, 10_state.md R12, R13): the register reads as the value written, every other one as
before, and the written one counts as written from then on, whatever steps follow. -/
def Obligations.WrittenRegisterReads : Prop :=
  ∀ (s : State) (i : RegNum) (v : Word),
    RegsAfterWrite s (s.writeReg i v) i v ∧ (s.writeReg i v).isWritten i = true ∧
    ∀ n, (State.cycles n (s.writeReg i v)).isWritten i = true

/-- 10_state.md R13: under `draw` a read of an unwritten register returns a value that stays the same for as long as
nothing writes the register; under `fault` it raises `UnwrittenRegister(i)` (decision D16). -/
def Obligations.UnwrittenRegisterReads : Prop :=
  ∀ (s : State) (i : RegNum), s.isWritten i = false →
    (s.cfg.unwritten = .fault → s.readReg i = .error (.unwrittenRegister i)) ∧
    (s.cfg.unwritten = .draw → ∃ v, s.readReg i = .ok v ∧
      ∀ n, (State.cycles n s).isWritten i = false → (State.cycles n s).readReg i = .ok v)

/-- 10_state.md R14: no instruction depends on a register outside its row's reads (two states that differ only in other
registers give the same fault, or next states with the same pc, the same data memory and the same value written), and
none changes a register outside its row's writes. -/
def Obligations.RegisterReadAndWriteSets : Prop :=
  ∀ (i : Instr) (s : State),
    (∀ s' : State, AgreeOn (Instr.reads i) s s' →
      match exec i s, exec i s' with
      | .next t, .next t'   => t.pc = t'.pc ∧ t.dmem = t'.dmem ∧
          ∀ r, Instr.writes i = some r → t.readReg r = t'.readReg r
      | .fault f, .fault f' => f = f'
      | _, _                => False) ∧
    (∀ t, exec i s = .next t → ∀ k, Instr.writes i ≠ some k →
      t.readReg k = s.readReg k ∧ RegFile.get t.regs k = RegFile.get s.regs k ∧ t.isWritten k = s.isWritten k)

/-! ## Arithmetic and logic -/

/-- 40_arithmetic_logic.md R71, whole: encoding, ALU operation, `x[rd] <- (x[rs] + x[rt]) mod 2^32` and `pc + 4`, the
faults of an unwritten source, and under `OVERFLOW_POLICY` = `fault` the fault on signed overflow. -/
def Obligations.AddWritesSum : Prop :=
  (∀ w : Word, w &&& 0xFC0007FF#32 = 0x00000020#32 →
    decode w = .ok (.add (w.extractLsb' 11 5) (w.extractLsb' 21 5) (w.extractLsb' 16 5))) ∧
  aluControl true false 0b100000#6 = 0b0010#4 ∧
  ∀ (s : State) (rd rs rt : RegNum),
    (s.Unreadable rs → exec (.add rd rs rt) s = .fault (.unwrittenRegister rs)) ∧
    ∀ a, s.readReg rs = .ok a →
      (s.Unreadable rt → exec (.add rd rs rt) s = .fault (.unwrittenRegister rt)) ∧
      ∀ b, s.readReg rt = .ok b →
        (¬ (s.cfg.overflow = .fault ∧ SumUnrepresentable a b) →
          CompletesWriting (.add rd rs rt) s rd (BitVec.ofNat 32 ((a.toNat + b.toNat) % 2 ^ 32))) ∧
        (s.cfg.overflow = .fault → SumUnrepresentable a b →
          exec (.add rd rs rt) s = .fault (.arithmeticOverflow s.pc))

/-- 40_arithmetic_logic.md R72, whole: as R71 with `(x[rs] - x[rt]) mod 2^32`, first operand minus second
(decision D9). -/
def Obligations.SubWritesDifference : Prop :=
  (∀ w : Word, w &&& 0xFC0007FF#32 = 0x00000022#32 →
    decode w = .ok (.sub (w.extractLsb' 11 5) (w.extractLsb' 21 5) (w.extractLsb' 16 5))) ∧
  aluControl true false 0b100010#6 = 0b0110#4 ∧
  ∀ (s : State) (rd rs rt : RegNum),
    (s.Unreadable rs → exec (.sub rd rs rt) s = .fault (.unwrittenRegister rs)) ∧
    ∀ a, s.readReg rs = .ok a →
      (s.Unreadable rt → exec (.sub rd rs rt) s = .fault (.unwrittenRegister rt)) ∧
      ∀ b, s.readReg rt = .ok b →
        (¬ (s.cfg.overflow = .fault ∧ DifferenceUnrepresentable a b) →
          CompletesWriting (.sub rd rs rt) s rd (BitVec.ofInt 32 ((a.toNat : Int) - b.toNat))) ∧
        (s.cfg.overflow = .fault → DifferenceUnrepresentable a b →
          exec (.sub rd rs rt) s = .fault (.arithmeticOverflow s.pc))

/-- 40_arithmetic_logic.md R73, whole: bit i of the result is bit i of x[rs] AND bit i of x[rt]; never overflow. -/
def Obligations.AndWritesBits : Prop :=
  (∀ w : Word, w &&& 0xFC0007FF#32 = 0x00000024#32 →
    decode w = .ok (.and (w.extractLsb' 11 5) (w.extractLsb' 21 5) (w.extractLsb' 16 5))) ∧
  aluControl true false 0b100100#6 = 0b0000#4 ∧
  ∀ (s : State) (rd rs rt : RegNum),
    (s.Unreadable rs → exec (.and rd rs rt) s = .fault (.unwrittenRegister rs)) ∧
    ∀ a, s.readReg rs = .ok a →
      (s.Unreadable rt → exec (.and rd rs rt) s = .fault (.unwrittenRegister rt)) ∧
      ∀ b, s.readReg rt = .ok b →
        ∃ v : Word, (∀ i < 32, v.getLsbD i = (a.getLsbD i && b.getLsbD i)) ∧ CompletesWriting (.and rd rs rt) s rd v

/-- 40_arithmetic_logic.md R74, whole: bit i of the result is bit i of x[rs] OR bit i of x[rt]; never overflow. -/
def Obligations.OrWritesBits : Prop :=
  (∀ w : Word, w &&& 0xFC0007FF#32 = 0x00000025#32 →
    decode w = .ok (.or (w.extractLsb' 11 5) (w.extractLsb' 21 5) (w.extractLsb' 16 5))) ∧
  aluControl true false 0b100101#6 = 0b0001#4 ∧
  ∀ (s : State) (rd rs rt : RegNum),
    (s.Unreadable rs → exec (.or rd rs rt) s = .fault (.unwrittenRegister rs)) ∧
    ∀ a, s.readReg rs = .ok a →
      (s.Unreadable rt → exec (.or rd rs rt) s = .fault (.unwrittenRegister rt)) ∧
      ∀ b, s.readReg rt = .ok b →
        ∃ v : Word, (∀ i < 32, v.getLsbD i = (a.getLsbD i || b.getLsbD i)) ∧ CompletesWriting (.or rd rs rt) s rd v

/-- 40_arithmetic_logic.md R75, whole: 1 if `signed(x[rs]) < signed(x[rt])` else 0, also where the difference overflows;
never overflow, under either policy (decision D10). -/
def Obligations.SltWritesComparison : Prop :=
  (∀ w : Word, w &&& 0xFC0007FF#32 = 0x0000002A#32 →
    decode w = .ok (.slt (w.extractLsb' 11 5) (w.extractLsb' 21 5) (w.extractLsb' 16 5))) ∧
  aluControl true false 0b101010#6 = 0b0111#4 ∧
  ∀ (s : State) (rd rs rt : RegNum),
    (s.Unreadable rs → exec (.slt rd rs rt) s = .fault (.unwrittenRegister rs)) ∧
    ∀ a, s.readReg rs = .ok a →
      (s.Unreadable rt → exec (.slt rd rs rt) s = .fault (.unwrittenRegister rt)) ∧
      ∀ b, s.readReg rt = .ok b →
        (a.toInt < b.toInt → CompletesWriting (.slt rd rs rt) s rd 1#32) ∧
        (b.toInt ≤ a.toInt → CompletesWriting (.slt rd rs rt) s rd 0#32)

/-- 40_arithmetic_logic.md R70 to R72: the bit conditions of R71 and R72 hold exactly when the true result, read as
signed, is not representable (R70). -/
def Obligations.OverflowExactlyUnrepresentable : Prop :=
  ∀ a b : Word, (addOverflows a b = true ↔ SumUnrepresentable a b) ∧
    (subOverflows a b = true ↔ DifferenceUnrepresentable a b)

/-- 60_exceptions.md R137: `ArithmeticOverflow(pc)` is raised by `add` and `sub` only, only under `OVERFLOW_POLICY` =
`fault`, and only on signed overflow. -/
def Obligations.OverflowFaultOnlyAddSub : Prop :=
  ∀ (i : Instr) (s : State) (p : Word), exec i s = .fault (.arithmeticOverflow p) →
    p = s.pc ∧ s.cfg.overflow = .fault ∧ ∃ rd rs rt a b, s.readReg rs = .ok a ∧ s.readReg rt = .ok b ∧
      ((i = .add rd rs rt ∧ SumUnrepresentable a b) ∨ (i = .sub rd rs rt ∧ DifferenceUnrepresentable a b))

/-- The frame of `add`, `sub`, `and`, `or`, `slt` (40_arithmetic_logic.md R76): when one answers a next state, every
register but rd keeps its contents and its mark (all of them where rd is a hardwired register 0), every byte of both
memories reads as before, and the parameters, the fault record and the draw are unchanged. -/
def Obligations.RFormatFrame : Prop :=
  ∀ (s t : State) (rd rs rt : RegNum) (i : Instr),
    i ∈ [Instr.add rd rs rt, .sub rd rs rt, .and rd rs rt, .or rd rs rt, .slt rd rs rt] → exec i s = .next t →
    (∀ k, k ≠ rd ∨ s.isHardwired rd = true →
      RegFile.get t.regs k = RegFile.get s.regs k ∧ t.isWritten k = s.isWritten k ∧ t.readReg k = s.readReg k) ∧
    t.pc = s.pc + 4#32 ∧ (∀ a, t.dmem.read a = s.dmem.read a) ∧ (∀ a, t.imem.read a = s.imem.read a) ∧
    t.cfg = s.cfg ∧ t.fault = s.fault ∧ t.draw = s.draw

/-! ## Memory access -/

/-- 20_memory.md R30: an address names a byte; the word at an aligned address under each byte order, for data and for
instruction fetch alike, and the bytes a store leaves (decision D5). -/
def Obligations.WordByteOrder : Prop :=
  ∀ (m : Memory) (a : Word) (b0 b1 b2 b3 : Byte), a.toNat % 4 = 0 →
    m.read a.toNat = some b0 → m.read (a.toNat + 1) = some b1 →
    m.read (a.toNat + 2) = some b2 → m.read (a.toNat + 3) = some b3 →
    m.readWord .big a = some (b0 ++ b1 ++ b2 ++ b3) ∧ m.readWord .little a = some (b3 ++ b2 ++ b1 ++ b0) ∧
    (∀ s : State, s.dmem = m → s.inDmemDomain a = true →
      s.memRead a = .ok (if s.cfg.byteOrder = .big then b0 ++ b1 ++ b2 ++ b3 else b3 ++ b2 ++ b1 ++ b0)) ∧
    (∀ s : State, s.imem = m →
      s.iFetch a = .ok (if s.cfg.byteOrder = .big then b0 ++ b1 ++ b2 ++ b3 else b3 ++ b2 ++ b1 ++ b0)) ∧
    (∀ v : Word, (m.writeWord .big a v).read a.toNat = some (v.extractLsb' 24 8) ∧
      (m.writeWord .big a v).read (a.toNat + 3) = some (v.extractLsb' 0 8) ∧
      (m.writeWord .little a v).read a.toNat = some (v.extractLsb' 0 8) ∧
      (m.writeWord .little a v).read (a.toNat + 3) = some (v.extractLsb' 24 8))

/-- 20_memory.md R33: `MemRead(a, 4)`: the checks in their order, the word at `a`, and a word never initialised treated
by R35 under `fault` and `draw` (under `init` R35 says that the case cannot arise). -/
def Obligations.MemReadChecksInOrder : Prop :=
  ∀ (s : State) (a : Word),
    (a.toNat % 4 ≠ 0 → s.memRead a = .error (.misalignedDataAddress s.pc a)) ∧
    (a.toNat % 4 = 0 → s.inDmemDomain a = false → s.memRead a = .error (.dataAccessFault s.pc a)) ∧
    (a.toNat % 4 = 0 → s.inDmemDomain a = true →
      (∀ v, s.dmem.readWord s.cfg.byteOrder a = some v → s.memRead a = .ok v) ∧
      (s.dmem.readWord s.cfg.byteOrder a = none →
        (s.cfg.unwritten = .fault → s.memRead a = .error (.uninitialisedMemory s.pc a)) ∧
        (s.cfg.unwritten = .draw → ∃ v, s.memRead a = .ok v)))

/-- 20_memory.md R34: `MemWrite(a, 4, v)`: the checks in their order; then the word at `a` is `v` and counts as
initialised, and every other byte of the data memory is unchanged, as is all other state. -/
def Obligations.MemWriteReplacesOneWord : Prop :=
  ∀ (s : State) (a v : Word),
    (a.toNat % 4 ≠ 0 → s.memWrite a v = .error (.misalignedDataAddress s.pc a)) ∧
    (a.toNat % 4 = 0 → s.inDmemDomain a = false → s.memWrite a v = .error (.dataAccessFault s.pc a)) ∧
    (a.toNat % 4 = 0 → s.inDmemDomain a = true → ∃ t, s.memWrite a v = .ok t ∧ t.memRead a = .ok v ∧
      (∀ k : Fin 4, t.dmem.read (a.toNat + k.val) = some (byteOfWord s.cfg.byteOrder v k)) ∧
      (∀ x, (∀ k : Fin 4, x ≠ a.toNat + k.val) → t.dmem.read x = s.dmem.read x) ∧
      t = { s with dmem := t.dmem })

/-- 41_load_store.md R81, whole: encoding, control values, the word at `x[rs] + sext_32(imm)` into `x[rt]` and `pc + 4`,
and the faults in their order. A word never initialised loads some value under `draw` (20_memory.md R35). -/
def Obligations.LwLoadsWord : Prop :=
  (∀ w : Word, w &&& 0xFC000000#32 = 0x8C000000#32 →
    decode w = .ok (.lw (w.extractLsb' 16 5) (w.extractLsb' 21 5) (w.extractLsb' 0 16))) ∧
  mainControl 0b100011#6 =
    some { regDst := .off, aluSrc := .on, memToReg := .on, regWrite := .on, memRead := .on, memWrite := .off,
           branch := .off, aluOp1 := .off, aluOp0 := .off, jump := .off } ∧
  ∀ (s : State) (rt rs : RegNum) (imm : Imm16),
    (s.Unreadable rs → exec (.lw rt rs imm) s = .fault (.unwrittenRegister rs)) ∧
    ∀ base, s.readReg rs = .ok base →
      let addr := base + imm.signExtend 32
      (addr.toNat % 4 ≠ 0 → exec (.lw rt rs imm) s = .fault (.misalignedDataAddress s.pc addr)) ∧
      (addr.toNat % 4 = 0 → s.inDmemDomain addr = false →
        exec (.lw rt rs imm) s = .fault (.dataAccessFault s.pc addr)) ∧
      (addr.toNat % 4 = 0 → s.inDmemDomain addr = true →
        (∀ v, s.dmem.readWord s.cfg.byteOrder addr = some v → CompletesWriting (.lw rt rs imm) s rt v) ∧
        (s.dmem.readWord s.cfg.byteOrder addr = none →
          (s.cfg.unwritten = .fault → exec (.lw rt rs imm) s = .fault (.uninitialisedMemory s.pc addr)) ∧
          (s.cfg.unwritten = .draw → ∃ v, CompletesWriting (.lw rt rs imm) s rt v)))

/-- 41_load_store.md R82, whole: encoding, control values, `x[rt]` into the word at `x[rs] + sext_32(imm)` and `pc + 4`,
no register written, and the faults in their order (stored register: decision D19). -/
def Obligations.SwStoresWord : Prop :=
  (∀ w : Word, w &&& 0xFC000000#32 = 0xAC000000#32 →
    decode w = .ok (.sw (w.extractLsb' 16 5) (w.extractLsb' 21 5) (w.extractLsb' 0 16))) ∧
  mainControl 0b101011#6 =
    some { regDst := .x, aluSrc := .on, memToReg := .x, regWrite := .off, memRead := .off, memWrite := .on,
           branch := .off, aluOp1 := .off, aluOp0 := .off, jump := .off } ∧
  ∀ (s : State) (rt rs : RegNum) (imm : Imm16),
    (s.Unreadable rs → exec (.sw rt rs imm) s = .fault (.unwrittenRegister rs)) ∧
    ∀ base, s.readReg rs = .ok base →
      (s.Unreadable rt → exec (.sw rt rs imm) s = .fault (.unwrittenRegister rt)) ∧
      ∀ v, s.readReg rt = .ok v →
        let addr := base + imm.signExtend 32
        (addr.toNat % 4 ≠ 0 → exec (.sw rt rs imm) s = .fault (.misalignedDataAddress s.pc addr)) ∧
        (addr.toNat % 4 = 0 → s.inDmemDomain addr = false →
          exec (.sw rt rs imm) s = .fault (.dataAccessFault s.pc addr)) ∧
        (addr.toNat % 4 = 0 → s.inDmemDomain addr = true →
          ∃ t, exec (.sw rt rs imm) s = .next t ∧ t.pc = s.pc + 4#32 ∧ SameRegs s t ∧ SameRest s t ∧
            t.memRead addr = .ok v ∧
            (∀ k : Fin 4, t.dmem.read (addr.toNat + k.val) = some (byteOfWord s.cfg.byteOrder v k)) ∧
            ∀ x, (∀ k : Fin 4, x ≠ addr.toNat + k.val) → t.dmem.read x = s.dmem.read x)

/-- The frame of `lw` and `sw` (41_load_store.md R81, R82). `lw`: every register but rt, every byte of both memories and
everything else as before. `sw`: every register; every byte of the data memory outside the word at the address the
instruction computes; the instruction memory and everything else. -/
def Obligations.LoadStoreFrame : Prop :=
  ∀ (s t : State) (rt rs : RegNum) (imm : Imm16),
    (exec (.lw rt rs imm) s = .next t →
      (∀ k, k ≠ rt ∨ s.isHardwired rt = true →
        RegFile.get t.regs k = RegFile.get s.regs k ∧ t.isWritten k = s.isWritten k ∧ t.readReg k = s.readReg k) ∧
      t.pc = s.pc + 4#32 ∧ (∀ a, t.dmem.read a = s.dmem.read a) ∧ (∀ a, t.imem.read a = s.imem.read a) ∧
      t.cfg = s.cfg ∧ t.fault = s.fault ∧ t.draw = s.draw) ∧
    (exec (.sw rt rs imm) s = .next t →
      (∀ k, RegFile.get t.regs k = RegFile.get s.regs k ∧ t.isWritten k = s.isWritten k ∧ t.readReg k = s.readReg k) ∧
      t.pc = s.pc + 4#32 ∧
      (∀ base, s.readReg rs = .ok base → ∀ x, (∀ k : Fin 4, x ≠ byteAddr (effectiveAddress base imm) k) →
        t.dmem.read x = s.dmem.read x) ∧
      (∀ a, t.imem.read a = s.imem.read a) ∧ t.cfg = s.cfg ∧ t.fault = s.fault ∧ t.draw = s.draw)

/-- 20_memory.md R39 (which the spec marks as derived): a load returns the value of the most recent store to the same
address. After a store, the word reads as stored after any number of cycles none of which executes a store to that
word. -/
def Obligations.LoadSeesLatestStore : Prop :=
  ∀ (s t : State) (rt rs : RegNum) (imm : Imm16) (base v : Word),
    s.readReg rs = .ok base → s.readReg rt = .ok v → exec (.sw rt rs imm) s = .next t →
    ∀ n, (∀ k, k < n → ∀ w rt' rs' imm' base', (State.cycles k t).cycleWord = .next w →
        decode w = .ok (.sw rt' rs' imm') → (State.cycles k t).readReg rs' = .ok base' →
        effectiveAddress base' imm' ≠ effectiveAddress base imm) →
      (State.cycles n t).memRead (effectiveAddress base imm) = .ok v

/-- 60_exceptions.md R133: `lw` and `sw` raise `MisalignedDataAddress(pc, a)` when `a = x[rs] + sext_32(imm)` has
`a[1:0] != 00`, and no other instruction raises it (decision D6). -/
def Obligations.MisalignedDataAddressExactly : Prop :=
  ∀ (s : State) (i : Instr) (p a : Word), exec i s = .fault (.misalignedDataAddress p a) ↔
    p = s.pc ∧ a.extractLsb' 0 2 ≠ 0#2 ∧ ∃ rt rs imm base, s.readReg rs = .ok base ∧ a = base + imm.signExtend 32 ∧
      (i = .lw rt rs imm ∨ (i = .sw rt rs imm ∧ ∃ v, s.readReg rt = .ok v))

/-- 60_exceptions.md R134: `lw` and `sw` raise `DataAccessFault(pc, a)` when the aligned address `a` is not in
`DMEM_DOMAIN`; with `DMEM_DOMAIN` = all aligned addresses it never occurs (decision D7). -/
def Obligations.DataAccessFaultExactly : Prop :=
  (∀ (s : State) (i : Instr) (p a : Word), exec i s = .fault (.dataAccessFault p a) ↔
    p = s.pc ∧ a.toNat % 4 = 0 ∧ s.inDmemDomain a = false ∧
      ∃ rt rs imm base, s.readReg rs = .ok base ∧ a = base + imm.signExtend 32 ∧
        (i = .lw rt rs imm ∨ (i = .sw rt rs imm ∧ ∃ v, s.readReg rt = .ok v))) ∧
  ∀ (s : State) (i : Instr) (p a : Word), s.cfg.dmemDomain = [⟨0, 2 ^ 30⟩] →
    exec i s ≠ .fault (.dataAccessFault p a)

/-- 60_exceptions.md R136: `UnwrittenRegister(i)` and `UninitialisedMemory(pc, a)` are raised under the `fault` policy,
and only then, when an instruction uses the value of a register or data word that has no specified value; `j` uses
none (decision D16). -/
def Obligations.UnspecifiedValueFaults : Prop :=
  (∀ (s : State) (i : Instr) (r : RegNum), exec i s = .fault (.unwrittenRegister r) →
    s.Unreadable r ∧ r ∈ Instr.reads i) ∧
  (∀ (s : State) (i : Instr) (r : RegNum), s.Unreadable r → r ∈ Instr.reads i →
    ∃ r', exec i s = .fault (.unwrittenRegister r') ∧ r' ∈ Instr.reads i) ∧
  (∀ (s : State) (i : Instr) (p a : Word), exec i s = .fault (.uninitialisedMemory p a) ↔
    p = s.pc ∧ s.cfg.unwritten = .fault ∧ a.toNat % 4 = 0 ∧ s.inDmemDomain a = true ∧
      s.dmem.readWord s.cfg.byteOrder a = none ∧
      ∃ rt rs imm base, i = .lw rt rs imm ∧ s.readReg rs = .ok base ∧ a = base + imm.signExtend 32)

/-- 60_exceptions.md R142: when one step meets several fault conditions it reports the first of FetchFault,
IllegalInstruction, UnwrittenRegister(rs), UnwrittenRegister(rt) (not for `lw`), ArithmeticOverflow,
MisalignedDataAddress, DataAccessFault, UninitialisedMemory (decision D14). -/
def Obligations.FaultPriority : Prop :=
  ∀ s : State,
    (s.cfg.admitted = true → s.fault = none → s.pc ≠ s.cfg.endPc → s.inImemDomain s.pc = false →
      step s = .fault (.fetchFault s.pc)) ∧
    (∀ w e, s.cycleWord = .next w → decode w = .error e → step s = .fault (.illegalInstruction s.pc w)) ∧
    (∀ rd rs rt i, i ∈ [Instr.add rd rs rt, .sub rd rs rt, .and rd rs rt, .or rd rs rt, .slt rd rs rt] →
      (s.Unreadable rs → exec i s = .fault (.unwrittenRegister rs)) ∧
      (¬ s.Unreadable rs → s.Unreadable rt → exec i s = .fault (.unwrittenRegister rt)) ∧
      (¬ s.Unreadable rs → ¬ s.Unreadable rt → ∀ f, exec i s = .fault f → f = .arithmeticOverflow s.pc)) ∧
    (∀ rs rt imm, let i := Instr.beq rs rt imm
      (s.Unreadable rs → exec i s = .fault (.unwrittenRegister rs)) ∧
      (¬ s.Unreadable rs → s.Unreadable rt → exec i s = .fault (.unwrittenRegister rt)) ∧
      (¬ s.Unreadable rs → ¬ s.Unreadable rt → ∀ f, exec i s ≠ .fault f)) ∧
    (∀ rt rs imm, let i := Instr.lw rt rs imm
      (s.Unreadable rs → exec i s = .fault (.unwrittenRegister rs)) ∧
      ∀ base, s.readReg rs = .ok base → ∀ f, exec i s = .fault f →
        f = if isAligned (base + imm.signExtend 32) = false then .misalignedDataAddress s.pc (base + imm.signExtend 32)
          else if s.inDmemDomain (base + imm.signExtend 32) = false then
            .dataAccessFault s.pc (base + imm.signExtend 32)
          else .uninitialisedMemory s.pc (base + imm.signExtend 32)) ∧
    (∀ rt rs imm, let i := Instr.sw rt rs imm
      (s.Unreadable rs → exec i s = .fault (.unwrittenRegister rs)) ∧
      (¬ s.Unreadable rs → s.Unreadable rt → exec i s = .fault (.unwrittenRegister rt)) ∧
      ∀ base v, s.readReg rs = .ok base → s.readReg rt = .ok v → ∀ f, exec i s = .fault f →
        f = if isAligned (base + imm.signExtend 32) = false then .misalignedDataAddress s.pc (base + imm.signExtend 32)
          else .dataAccessFault s.pc (base + imm.signExtend 32)) ∧
    ∀ imm26 f, exec (.j imm26) s ≠ .fault f

/-- Only `sw` changes the data memory (10_state.md R18: "only `sw` asserts MemWrite"), in any step. -/
def Obligations.OnlyStoreChangesDataMemory : Prop :=
  ∀ s t : State, step s = .next t → t.dmem ≠ s.dmem →
    ∃ w rt rs imm, s.cycleWord = .next w ∧ decode w = .ok (.sw rt rs imm)

/-- 20_memory.md R41: a store is never seen by an instruction fetch; after any number of cycles every fetch gives what
it gave before, so a program cannot create or change instructions (decision D4). -/
def Obligations.StoresNeverReachFetch : Prop :=
  ∀ (s : State) (n : Nat), (State.cycles n s).imem = s.imem ∧ ∀ a, (State.cycles n s).iFetch a = s.iFetch a

/-- The parameters of a run never change (10_state.md R23, last row of the table). The clause about `draw` is no rule
of the spec: the field is the model's own (log entry 6). -/
def Obligations.ParametersNeverChange : Prop :=
  ∀ (s : State) (n : Nat), (State.cycles n s).cfg = s.cfg ∧ (State.cycles n s).draw = s.draw

/-! ## Control transfer -/

/-- 42_branch_jump.md R91, whole: encoding, control values, ALU subtraction, the branch taken exactly when the registers
are equal, to `pc + 4 + (sext_32(imm) << 2)`, else `pc + 4`, nothing else changed, and its faults (decisions D11,
D12). -/
def Obligations.BeqBranchesOnEqual : Prop :=
  (∀ w : Word, w &&& 0xFC000000#32 = 0x10000000#32 →
    decode w = .ok (.beq (w.extractLsb' 21 5) (w.extractLsb' 16 5) (w.extractLsb' 0 16))) ∧
  mainControl 0b000100#6 =
    some { regDst := .x, aluSrc := .off, memToReg := .x, regWrite := .off, memRead := .off, memWrite := .off,
           branch := .on, aluOp1 := .off, aluOp0 := .on, jump := .off } ∧
  (∀ funct, aluControl false true funct = 0b0110#4) ∧
  ∀ (s : State) (rs rt : RegNum) (imm : Imm16),
    (s.Unreadable rs → exec (.beq rs rt imm) s = .fault (.unwrittenRegister rs)) ∧
    ∀ a, s.readReg rs = .ok a →
      (s.Unreadable rt → exec (.beq rs rt imm) s = .fault (.unwrittenRegister rt)) ∧
      ∀ b, s.readReg rt = .ok b →
        (a = b → CompletesAt (.beq rs rt imm) s (s.pc + 4#32 + (imm.signExtend 32 <<< 2))) ∧
        (a ≠ b → CompletesAt (.beq rs rt imm) s (s.pc + 4#32))

/-- 42_branch_jump.md R92 (which the spec marks as derived): the displacement of a taken `beq`, from its own address, is
`4 + 4 * signed16(imm)`, modulo 2^32, within -131068 .. +131072 and a multiple of 4. -/
def Obligations.BranchReach : Prop :=
  ∀ (pc : Word) (imm : Imm16),
    ((branchTarget pc imm).toNat : Int) = ((pc.toNat : Int) + (4 + 4 * imm.toInt)) % 2 ^ 32 ∧
    (branchTarget pc imm - pc).toInt = 4 + 4 * imm.toInt ∧
    -131068 ≤ 4 + 4 * imm.toInt ∧ 4 + 4 * imm.toInt ≤ 131072

/-- 42_branch_jump.md R93, whole: encoding, `pc <- { ((pc + 4) mod 2^32)[31:28], imm26, 00 }`, the control values it
needs, no register and no memory touched, from every state (decision D13). -/
def Obligations.JumpGoesToField : Prop :=
  (∀ w : Word, w &&& 0xFC000000#32 = 0x08000000#32 → decode w = .ok (.j (w.extractLsb' 0 26))) ∧
  (∃ c, mainControl 0b000010#6 = some c ∧ c.regWrite = .off ∧ c.memWrite = .off ∧ c.jump = .on) ∧
  ∀ (s : State) (imm26 : Imm26),
    CompletesAt (.j imm26) s ((s.pc + 4#32).extractLsb' 28 4 ++ imm26 ++ 0b00#2)

/-- 42_branch_jump.md R94 (which the spec marks as derived): the target of `j` is `(pc + 4)[31:28] * 2^28 + 4 * imm26`,
and every aligned address of that region is the target of one field. -/
def Obligations.JumpReach : Prop :=
  ∀ pc : Word,
    (∀ imm26 : Imm26, (jumpTarget pc imm26).toNat = (pc + 4#32).toNat / 2 ^ 28 * 2 ^ 28 + 4 * imm26.toNat) ∧
    ∀ a : Word, a.toNat % 4 = 0 → a.toNat / 2 ^ 28 = (pc + 4#32).toNat / 2 ^ 28 →
      ∃ imm26 : Imm26, jumpTarget pc imm26 = a

/-- The frame of `beq` and `j` (42_branch_jump.md R91, R93): nothing but the pc changes. -/
def Obligations.BranchJumpFrame : Prop :=
  ∀ (s t : State) (i : Instr), ((∃ rs rt imm, i = .beq rs rt imm) ∨ ∃ imm26, i = .j imm26) → exec i s = .next t →
    (∀ k, RegFile.get t.regs k = RegFile.get s.regs k ∧ t.isWritten k = s.isWritten k ∧ t.readReg k = s.readReg k) ∧
    (∀ a, t.dmem.read a = s.dmem.read a) ∧ (∀ a, t.imem.read a = s.imem.read a) ∧
    t.cfg = s.cfg ∧ t.fault = s.fault ∧ t.draw = s.draw

/-- 10_state.md R16: every instruction replaces the pc by one of three values, and which: the branch target for a `beq`
whose registers are equal, the jump address for `j`, else `pc + 4` (decision D21). -/
def Obligations.NextPcOfEveryInstruction : Prop :=
  ∀ (i : Instr) (s t : State), exec i s = .next t →
    match i with
    | .beq rs rt imm => ∃ a b, s.readReg rs = .ok a ∧ s.readReg rt = .ok b ∧
        ((a = b ∧ t.pc = s.pc + 4#32 + (imm.signExtend 32 <<< 2)) ∨ (a ≠ b ∧ t.pc = s.pc + 4#32))
    | .j imm26 => t.pc = (s.pc + 4#32).extractLsb' 28 4 ++ imm26 ++ 0b00#2
    | _ => t.pc = s.pc + 4#32

/-- 42_branch_jump.md R95, R91: a `j` or a taken `beq` to its own address never ends and changes nothing: an infinite
execution, not a final state (decision D17). -/
def Obligations.JumpToItselfNeverEnds : Prop :=
  ∀ (s : State) (w : Word), s.cycleWord = .next w →
    (∀ rs rt a, decode w = .ok (.beq rs rt 0xFFFF#16) → s.readReg rs = .ok a → s.readReg rt = .ok a →
      ∀ n, State.cycles n s = s ∧ (State.cycles n s).runOver = false) ∧
    (∀ imm26, decode w = .ok (.j imm26) → jumpTarget s.pc imm26 = s.pc →
      ∀ n, State.cycles n s = s ∧ (State.cycles n s).runOver = false)

/-! ## The datapath -/

/-- 45_datapath_control.md R119 (which the spec marks as derived): the datapath, driven by the control table and the ALU
control equations, does on every state exactly what the instructions' own rules say, whatever the don't-care outputs
carry. `OVERFLOW_POLICY` = `fault` exists only at the instruction level (R119), so it is excluded. Which register ports
count is the model's deduction from R121, and the don't-care outputs as an argument are its choice (log entry 9); so is
what an idle port or an idle Read data output carries (log entry 8). -/
def Obligations.DatapathAgreesWithInstructions : Prop :=
  ∀ (filling : Control Bool) (s : State), s.cfg.overflow = .wrap → datapathStep filling s = step s

/-- 45_datapath_control.md R103, 93_implementation_defined.md U10: the outputs marked X have no effect on any state. -/
def Obligations.DontCaresHaveNoEffect : Prop :=
  ∀ (filling filling' : Control Bool) (s : State), datapathStep filling s = datapathStep filling' s

/-- 45_datapath_control.md R109: the four equations reproduce every row of the truth table of R108 for ALUOp in
{00, 01, 10}: 0010 for 00 and 0110 for 01 whatever the funct, the five listed values for 10. -/
def Obligations.AluControlEquations : Prop :=
  (∀ (op1 op0 : Bool) (funct : BitVec 6), ¬ (op1 = true ∧ op0 = true) →
    ∀ r ∈ aluControlTable, r.applies op1 op0 funct = true → aluControl op1 op0 funct = r.operation) ∧
  (∀ funct : BitVec 6, aluControl false false funct = 0b0010#4 ∧ aluControl false true funct = 0b0110#4) ∧
  (∀ (op1 op0 : Bool) (funct : BitVec 6),
    (aluControl op1 op0 funct).getLsbD 3 = false ∧
    (aluControl op1 op0 funct).getLsbD 2 = (op0 || (op1 && funct.getLsbD 1)) ∧
    (aluControl op1 op0 funct).getLsbD 1 = (!op1 || !funct.getLsbD 2) ∧
    (aluControl op1 op0 funct).getLsbD 0 = (op1 && (funct.getLsbD 3 || funct.getLsbD 0)))

/-- 45_datapath_control.md R103, R105, R106: the control values of the four classes and of `j` (decision D13), and none
for the 59 other opcodes. -/
def Obligations.MainControlTable : Prop :=
  mainControl 0b000000#6 =
    some { regDst := .on, aluSrc := .off, memToReg := .off, regWrite := .on, memRead := .off, memWrite := .off,
           branch := .off, aluOp1 := .on, aluOp0 := .off, jump := .off } ∧
  mainControl 0b100011#6 =
    some { regDst := .off, aluSrc := .on, memToReg := .on, regWrite := .on, memRead := .on, memWrite := .off,
           branch := .off, aluOp1 := .off, aluOp0 := .off, jump := .off } ∧
  mainControl 0b101011#6 =
    some { regDst := .x, aluSrc := .on, memToReg := .x, regWrite := .off, memRead := .off, memWrite := .on,
           branch := .off, aluOp1 := .off, aluOp0 := .off, jump := .off } ∧
  mainControl 0b000100#6 =
    some { regDst := .x, aluSrc := .off, memToReg := .x, regWrite := .off, memRead := .off, memWrite := .off,
           branch := .on, aluOp1 := .off, aluOp0 := .on, jump := .off } ∧
  mainControl 0b000010#6 =
    some { regDst := .x, aluSrc := .x, memToReg := .x, regWrite := .off, memRead := .off, memWrite := .off,
           branch := .x, aluOp1 := .x, aluOp0 := .x, jump := .on } ∧
  ∀ opcode : BitVec 6, opcode ∉ [0b000000#6, 0b100011#6, 0b101011#6, 0b000100#6, 0b000010#6] →
    mainControl opcode = none

/-- 45_datapath_control.md R110: the ALU's five listed operations, and Zero (decisions D9, D10, D11). -/
def Obligations.AluActions : Prop :=
  ∀ a b : Word, (∀ i < 32, (aluResult 0b0000#4 a b).getLsbD i = (a.getLsbD i && b.getLsbD i)) ∧
    (∀ i < 32, (aluResult 0b0001#4 a b).getLsbD i = (a.getLsbD i || b.getLsbD i)) ∧
    (aluResult 0b0010#4 a b).toNat = (a.toNat + b.toNat) % 2 ^ 32 ∧
    ((aluResult 0b0110#4 a b).toNat : Int) = ((a.toNat : Int) - b.toNat) % 2 ^ 32 ∧
    (a.toInt < b.toInt → aluResult 0b0111#4 a b = 1#32) ∧ (b.toInt ≤ a.toInt → aluResult 0b0111#4 a b = 0#32) ∧
    ∀ r : Word, aluZero r = true ↔ r.toNat = 0

/-! ## The whole machine -/

/-- Ordinary data does not end a run: with every aligned data address in `DMEM_DOMAIN`, `OVERFLOW_POLICY` = `wrap` and
`UNWRITTEN_REG_POLICY` other than `fault`, every instruction completes in every state but a `lw` or `sw` whose address
is not a multiple of 4 (60_exceptions.md R131, the list of faults). The model's own choice: under the policy `init`,
where 20_memory.md R35 says that the case cannot arise, a `lw` of a word the list of data bytes does not hold completes
with a free value (log entry 5); under `draw` its value is the free value of log entry 6. -/
def Obligations.OrdinaryDataCompletes : Prop :=
  ∀ (i : Instr) (s : State), s.cfg.unwritten ≠ .fault → s.cfg.overflow = .wrap →
    (∀ a : Word, a.toNat % 4 = 0 → s.inDmemDomain a = true) →
    (∃ t, exec i s = .next t) ∨
    ∃ rt rs imm base, (i = .lw rt rs imm ∨ i = .sw rt rs imm) ∧ s.readReg rs = .ok base ∧
      (base + imm.signExtend 32).toNat % 4 ≠ 0 ∧
      exec i s = .fault (.misalignedDataAddress s.pc (base + imm.signExtend 32))

/-- 70_reset_and_hazards.md R162: the total times of the classes, and a clock period that covers the longest, `lw`. -/
def Obligations.CriticalPathTimes : Prop :=
  (∀ rt rs imm, totalTime (.lw rt rs imm) = some 800 ∧ totalTime (.sw rt rs imm) = some 700 ∧
    totalTime (.beq rs rt imm) = some 500) ∧
  (∀ rd rs rt, totalTime (.add rd rs rt) = some 600 ∧ totalTime (.sub rd rs rt) = some 600 ∧
    totalTime (.and rd rs rt) = some 600 ∧ totalTime (.or rd rs rt) = some 600 ∧
    totalTime (.slt rd rs rt) = some 600) ∧
  (∀ i ps, totalTime i = some ps → ps ≤ minimumClockPeriod) ∧
  ∀ rt rs imm, totalTime (.lw rt rs imm) = some minimumClockPeriod

/-- 10_state.md R13, 60_exceptions.md R136: `UnwrittenRegister` and `UninitialisedMemory` exist under the policy `fault`
only. In a run under another policy no step ever raises either; and no run from `State.reset`, whatever program and data
the host loads, does, since its policy is `init` and every register holds a value (the model's choice: log entries 4
and 5). -/
def Obligations.UnwrittenValueNeverStopsRun : Prop :=
  (∀ s : State, s.cfg.unwritten ≠ .fault → s.fault = none → ∀ n f, step (State.cycles n s) = .fault f →
    (∀ r, f ≠ .unwrittenRegister r) ∧ ∀ p a, f ≠ .uninitialisedMemory p a) ∧
  ∀ (program image : Memory) (n : Nat) (f : Fault),
    step (State.cycles n { State.reset with imem := program, dmem := image }) = .fault f →
    (∀ r, f ≠ .unwrittenRegister r) ∧ ∀ p a, f ≠ .uninitialisedMemory p a
end

