-- ==== Sys2Proof/Laws/Encoding.lean ====
section
/-! SUPPORT. The fields of an encoded word (30_encoding.md R51 to R54), and what the masks of 30_encoding.md R57 test. -/

namespace Sys2Proof

/-- A field of an appended word that lies inside the lower part is a field of that part. -/
theorem extract_append_low {m n : Nat} (x : BitVec m) (y : BitVec n) (lo len : Nat) (h : lo + len ≤ n) :
    (x ++ y).extractLsb' lo len = y.extractLsb' lo len := by
  apply BitVec.eq_of_getLsbD_eq
  intro i hi
  simp [BitVec.getLsbD_extractLsb', BitVec.getLsbD_append, show lo + i < n by omega]

/-- A field of an appended word that lies inside the upper part is a field of that part. -/
theorem extract_append_high {m n : Nat} (x : BitVec m) (y : BitVec n) (lo len : Nat) (h : n ≤ lo) :
    (x ++ y).extractLsb' lo len = x.extractLsb' (lo - n) len := by
  apply BitVec.eq_of_getLsbD_eq
  intro i hi
  simp [BitVec.getLsbD_extractLsb', BitVec.getLsbD_append, show ¬ lo + i < n by omega,
    show lo + i - n = lo - n + i by omega]

theorem extract_all {n : Nat} (x : BitVec n) : x.extractLsb' 0 n = x := by
  apply BitVec.eq_of_getLsbD_eq
  intro i hi
  simp [hi]

section
variable (rs rt rd : RegNum) (funct opcode : BitVec 6) (imm : Imm16) (imm26 : Imm26)

theorem opcode_encodeR : Word.opcode (encodeR rs rt rd funct) = 0b000000#6 := by
  unfold Word.opcode encodeR
  rw [extract_append_high _ _ _ _ (by decide), extract_append_high _ _ _ _ (by decide),
    extract_append_high _ _ _ _ (by decide), extract_append_high _ _ _ _ (by decide),
    extract_append_high _ _ _ _ (by decide), extract_all]

theorem rs_encodeR : Word.rs (encodeR rs rt rd funct) = rs := by
  unfold Word.rs encodeR
  rw [extract_append_high _ _ _ _ (by decide), extract_append_high _ _ _ _ (by decide),
    extract_append_high _ _ _ _ (by decide), extract_append_high _ _ _ _ (by decide),
    extract_append_low _ _ _ _ (by decide), extract_all]

theorem rt_encodeR : Word.rt (encodeR rs rt rd funct) = rt := by
  unfold Word.rt encodeR
  rw [extract_append_high _ _ _ _ (by decide), extract_append_high _ _ _ _ (by decide),
    extract_append_high _ _ _ _ (by decide), extract_append_low _ _ _ _ (by decide), extract_all]

theorem rd_encodeR : Word.rd (encodeR rs rt rd funct) = rd := by
  unfold Word.rd encodeR
  rw [extract_append_high _ _ _ _ (by decide), extract_append_high _ _ _ _ (by decide),
    extract_append_low _ _ _ _ (by decide), extract_all]

theorem shamt_encodeR : Word.shamt (encodeR rs rt rd funct) = 0#5 := by
  unfold Word.shamt encodeR
  rw [extract_append_high _ _ _ _ (by decide), extract_append_low _ _ _ _ (by decide), extract_all]

theorem funct_encodeR : Word.funct (encodeR rs rt rd funct) = funct := by
  unfold Word.funct encodeR
  rw [extract_append_low _ _ _ _ (by decide), extract_all]

theorem opcode_encodeI : Word.opcode (encodeI opcode rs rt imm) = opcode := by
  unfold Word.opcode encodeI
  rw [extract_append_high _ _ _ _ (by decide), extract_append_high _ _ _ _ (by decide),
    extract_append_high _ _ _ _ (by decide), extract_all]

theorem rs_encodeI : Word.rs (encodeI opcode rs rt imm) = rs := by
  unfold Word.rs encodeI
  rw [extract_append_high _ _ _ _ (by decide), extract_append_high _ _ _ _ (by decide),
    extract_append_low _ _ _ _ (by decide), extract_all]

theorem rt_encodeI : Word.rt (encodeI opcode rs rt imm) = rt := by
  unfold Word.rt encodeI
  rw [extract_append_high _ _ _ _ (by decide), extract_append_low _ _ _ _ (by decide), extract_all]

theorem imm_encodeI : Word.imm (encodeI opcode rs rt imm) = imm := by
  unfold Word.imm encodeI
  rw [extract_append_low _ _ _ _ (by decide), extract_all]

theorem opcode_encodeJ : Word.opcode (encodeJ opcode imm26) = opcode := by
  unfold Word.opcode encodeJ
  rw [extract_append_high _ _ _ _ (by decide), extract_all]

theorem imm26_encodeJ : Word.imm26 (encodeJ opcode imm26) = imm26 := by
  unfold Word.imm26 encodeJ
  rw [extract_append_low _ _ _ _ (by decide), extract_all]

end

/-! ## What the masks test -/

theorem Word.eq_iff_fields (v w : Word) :
    v = w ↔ Word.opcode v = Word.opcode w ∧ Word.imm26 v = Word.imm26 w := by
  refine ⟨fun h => h ▸ ⟨rfl, rfl⟩, fun ⟨h1, h2⟩ => BitVec.eq_of_getLsbD_eq fun i hi => ?_⟩
  by_cases hlo : i < 26
  · have := congrArg (fun x => x.getLsbD i) h2
    simpa [Word.imm26, BitVec.getLsbD_extractLsb', hlo] using this
  · have := congrArg (fun x => x.getLsbD (i - 26)) h1
    simpa [Word.opcode, BitVec.getLsbD_extractLsb', show i - 26 < 6 by omega, show 26 + (i - 26) = i by omega]
      using this

theorem extract_and {n : Nat} (v w : BitVec n) (lo len : Nat) :
    (v &&& w).extractLsb' lo len = v.extractLsb' lo len &&& w.extractLsb' lo len := by
  apply BitVec.eq_of_getLsbD_eq
  intro i hi
  simp [hi]

/-- The mask of the I- and J-format rows tests the opcode. -/
theorem matches_opcode (w p : Word) (hp : Word.imm26 p = 0#26) :
    w &&& 0xFC000000#32 = p ↔ Word.opcode w = Word.opcode p := by
  rw [Word.eq_iff_fields]
  have h1 : Word.opcode (w &&& 0xFC000000#32) = Word.opcode w := by
    unfold Word.opcode
    rw [extract_and, show (0xFC000000#32).extractLsb' 26 6 = BitVec.allOnes 6 by decide, BitVec.and_allOnes]
  have h2 : Word.imm26 (w &&& 0xFC000000#32) = 0#26 := by
    unfold Word.imm26
    rw [extract_and, show (0xFC000000#32).extractLsb' 0 26 = 0#26 by decide, BitVec.and_zero]
  rw [h1, h2, hp]
  simp

/-- The mask of the R-format rows tests opcode, shamt and funct. -/
theorem matches_rFormat (w p : Word) (hp : p.extractLsb' 11 15 = 0#15) :
    w &&& 0xFC0007FF#32 = p ↔
      Word.opcode w = Word.opcode p ∧ Word.shamt w = Word.shamt p ∧ Word.funct w = Word.funct p := by
  have h1 : Word.opcode (w &&& 0xFC0007FF#32) = Word.opcode w := by
    unfold Word.opcode
    rw [extract_and, show (0xFC0007FF#32).extractLsb' 26 6 = BitVec.allOnes 6 by decide, BitVec.and_allOnes]
  have h2 : Word.shamt (w &&& 0xFC0007FF#32) = Word.shamt w := by
    unfold Word.shamt
    rw [extract_and, show (0xFC0007FF#32).extractLsb' 6 5 = BitVec.allOnes 5 by decide, BitVec.and_allOnes]
  have h3 : Word.funct (w &&& 0xFC0007FF#32) = Word.funct w := by
    unfold Word.funct
    rw [extract_and, show (0xFC0007FF#32).extractLsb' 0 6 = BitVec.allOnes 6 by decide, BitVec.and_allOnes]
  have h4 : (w &&& 0xFC0007FF#32).extractLsb' 11 15 = 0#15 := by
    rw [extract_and, show (0xFC0007FF#32).extractLsb' 11 15 = 0#15 by decide, BitVec.and_zero]
  constructor
  · rintro h
    rw [← h1, ← h2, ← h3, h]
    exact ⟨rfl, rfl, rfl⟩
  · rintro ⟨e1, e2, e3⟩
    rw [← h1] at e1
    rw [← h2] at e2
    rw [← h3] at e3
    rw [← hp] at h4
    refine BitVec.eq_of_getLsbD_eq fun i hi => ?_
    by_cases c1 : i < 6
    · have := congrArg (fun x => x.getLsbD i) e3
      simpa [Word.funct, BitVec.getLsbD_extractLsb', c1] using this
    by_cases c2 : i < 11
    · have := congrArg (fun x => x.getLsbD (i - 6)) e2
      simpa [Word.shamt, BitVec.getLsbD_extractLsb', show i - 6 < 5 by omega, show 6 + (i - 6) = i by omega]
        using this
    by_cases c3 : i < 26
    · have := congrArg (fun x => x.getLsbD (i - 11)) h4
      simpa [BitVec.getLsbD_extractLsb', show i - 11 < 15 by omega, show 11 + (i - 11) = i by omega] using this
    · have := congrArg (fun x => x.getLsbD (i - 26)) e1
      simpa [Word.opcode, BitVec.getLsbD_extractLsb', show i - 26 < 6 by omega, show 26 + (i - 26) = i by omega]
        using this

/-- An R-format word has the pattern of its funct's row. -/
theorem encodeR_matches (rs rt rd : RegNum) (funct : BitVec 6) (p : Word) (hp : p.extractLsb' 11 15 = 0#15)
    (ho : Word.opcode p = 0b000000#6) (hs : Word.shamt p = 0#5) (hf : Word.funct p = funct) :
    encodeR rs rt rd funct &&& 0xFC0007FF#32 = p := by
  rw [matches_rFormat _ _ hp, ho, hs, hf]
  exact ⟨opcode_encodeR .., shamt_encodeR .., funct_encodeR ..⟩

/-- An I-format word has the pattern of its opcode's row. -/
theorem encodeI_matches (opcode : BitVec 6) (rs rt : RegNum) (imm : Imm16) (p : Word)
    (hp : Word.imm26 p = 0#26) (ho : Word.opcode p = opcode) : encodeI opcode rs rt imm &&& 0xFC000000#32 = p := by
  rw [matches_opcode _ _ hp, ho]
  exact opcode_encodeI ..

/-- A J-format word has the pattern of its opcode's row. -/
theorem encodeJ_matches (opcode : BitVec 6) (imm26 : Imm26) (p : Word)
    (hp : Word.imm26 p = 0#26) (ho : Word.opcode p = opcode) : encodeJ opcode imm26 &&& 0xFC000000#32 = p := by
  rw [matches_opcode _ _ hp, ho]
  exact opcode_encodeJ ..

end Sys2Proof
end

