-- ==== Sys2Proof/Laws/Memory.lean ====
section
/-! SUPPORT. Memories: a read after a write, the words of 20_memory.md R30, and the canonical form, which every memory
operation keeps. -/

namespace Sys2Proof.Machine

/-! ## One byte -/

theorem Memory.read_write_same (m : Memory) (a : Nat) (v : Byte) : (m.write a v).read a = some v := by
  induction m with
  | nil => simp [Memory.write, Memory.read]
  | cons c m ih =>
    obtain ⟨k, w⟩ := c
    simp only [Memory.write]
    split
    · simp [Memory.read]
    · split
      · simp [Memory.read]
      · next h1 h2 => simp only [Memory.read, if_neg (Ne.symm h2), ih]

theorem Memory.read_write_other (m : Memory) {a b : Nat} (v : Byte) (h : b ≠ a) :
    (m.write a v).read b = m.read b := by
  induction m with
  | nil => simp [Memory.write, Memory.read, h.symm]
  | cons c m ih =>
    obtain ⟨k, w⟩ := c
    simp only [Memory.write]
    split
    · simp [Memory.read, h.symm]
    · split
      · next h2 => subst h2; simp [Memory.read, h.symm]
      · simp only [Memory.read, ih]

/-- The cells of a written memory: the new one and old ones. -/
theorem Memory.mem_write {m : Memory} {a : Nat} {v : Byte} {c : Host.Cell} (h : c ∈ m.write a v) :
    c = (a, v) ∨ c ∈ m := by
  induction m with
  | nil => simpa [Memory.write] using h
  | cons d m ih =>
    obtain ⟨k, w⟩ := d
    simp only [Memory.write] at h
    split at h
    · simpa using h
    · split at h
      · rcases List.mem_cons.1 h with h | h
        · exact .inl h
        · exact .inr (List.mem_cons_of_mem _ h)
      · rcases List.mem_cons.1 h with h | h
        · exact .inr (h ▸ List.mem_cons_self)
        · exact (ih h).imp_right (List.mem_cons_of_mem _)

/-- A write keeps the canonical form. -/
theorem Memory.wf_write {m : Memory} {a : Nat} (v : Byte) (h : m.wf) (ha : a < 4294967296) : (m.write a v).wf := by
  refine ⟨?_, fun c hc => ?_⟩
  · obtain ⟨h, -⟩ := h
    induction m with
    | nil => simp [Memory.write]
    | cons d m ih =>
      obtain ⟨k, w⟩ := d
      obtain ⟨hk, hm⟩ := List.pairwise_cons.1 h
      simp only [Memory.write]
      split
      · next hlt =>
        refine List.pairwise_cons.2 ⟨fun c hc => ?_, h⟩
        rcases List.mem_cons.1 hc with rfl | hc
        · exact hlt
        · exact hlt.trans (hk c hc)
      · split
        · next heq => subst heq; exact List.pairwise_cons.2 ⟨hk, hm⟩
        · next h1 h2 =>
          refine List.pairwise_cons.2 ⟨fun c hc => ?_, ih hm⟩
          rcases Memory.mem_write hc with rfl | hc
          · simp only; omega
          · exact hk c hc
  · rcases Memory.mem_write hc with rfl | hc
    · exact ha
    · exact h.2 c hc

/-- In a memory in canonical form an address is listed exactly when it reads a value. -/
theorem Memory.read_of_mem {m : Memory} (h : m.wf) {c : Host.Cell} (hc : c ∈ m) : m.read c.1 = some c.2 := by
  obtain ⟨h, -⟩ := h
  induction m with
  | nil => cases hc
  | cons d m ih =>
    obtain ⟨k, w⟩ := d
    obtain ⟨hk, hm⟩ := List.pairwise_cons.1 h
    rcases List.mem_cons.1 hc with rfl | hc
    · simp [Memory.read]
    · have hlt : k < c.1 := hk c hc
      simp only [Memory.read, if_neg hlt.ne, ih hc hm]

/-! ## Words -/

theorem isAligned_iff {a : Word} : isAligned a = true ↔ a.toNat % 4 = 0 := decide_eq_true_iff

theorem not_isAligned_iff {a : Word} : isAligned a = false ↔ a.toNat % 4 ≠ 0 := decide_eq_false_iff_not

theorem byteAddr_lt (a : Word) (k : Fin 4) : byteAddr a k < 4294967296 := (a + BitVec.ofNat 32 k.val).isLt

theorem byteAddr_eq (a : Word) (k : Fin 4) : byteAddr a k = (a.toNat + k.val) % 4294967296 := by
  have := k.isLt
  simp [byteAddr, BitVec.toNat_add]

/-- The bytes of an aligned word lie at consecutive addresses, below the top of the address space. -/
theorem byteAddr_of_aligned {a : Word} (h : isAligned a = true) (k : Fin 4) : byteAddr a k = a.toNat + k.val := by
  have h : a.toNat % 4 = 0 := of_decide_eq_true h
  have := a.isLt
  have := k.isLt
  rw [byteAddr_eq]
  omega

theorem byteAddr_inj {a : Word} {k l : Fin 4} (h : byteAddr a k = byteAddr a l) : k = l := by
  have := k.isLt
  have := l.isLt
  have := a.isLt
  rw [byteAddr_eq, byteAddr_eq] at h
  exact Fin.ext (by omega)

/-- Distinct aligned words share no byte. -/
theorem byteAddr_ne {a b : Word} (ha : isAligned a = true) (hb : isAligned b = true) (hne : a ≠ b) (k l : Fin 4) :
    byteAddr a k ≠ byteAddr b l := by
  have ha' : a.toNat % 4 = 0 := of_decide_eq_true ha
  have hb' : b.toNat % 4 = 0 := of_decide_eq_true hb
  have hne' : a.toNat ≠ b.toNat := fun h => hne (BitVec.eq_of_toNat_eq h)
  have := k.isLt
  have := l.isLt
  rw [byteAddr_of_aligned ha, byteAddr_of_aligned hb]
  omega

/-- A word assembled from the bytes of `v` is `v`, in either byte order. -/
theorem assembleWord_bytes (order : ByteOrder) (v : Word) :
    assembleWord order (byteOfWord order v 0) (byteOfWord order v 1) (byteOfWord order v 2) (byteOfWord order v 3) =
      v := by
  apply BitVec.eq_of_getLsbD_eq
  intro i hi
  cases order <;>
    simp only [assembleWord, byteOfWord, BitVec.getLsbD_append, BitVec.getLsbD_extractLsb', Nat.sub_sub] <;>
    · repeat' split
      all_goals
        rw [decide_eq_true (by omega), Bool.true_and]
        congr 1
        simp
        try omega

theorem Memory.read_writeWord_byte (m : Memory) (order : ByteOrder) (a v : Word) (k : Fin 4) :
    (m.writeWord order a v).read (byteAddr a k) = some (byteOfWord order v k) := by
  have ne : ∀ {i j : Fin 4}, i ≠ j → byteAddr a i ≠ byteAddr a j := fun h he => h (byteAddr_inj he)
  unfold Memory.writeWord
  match k with
  | 0 => rw [Memory.read_write_other _ _ (ne (by decide)), Memory.read_write_other _ _ (ne (by decide)),
      Memory.read_write_other _ _ (ne (by decide)), Memory.read_write_same]
  | 1 => rw [Memory.read_write_other _ _ (ne (by decide)), Memory.read_write_other _ _ (ne (by decide)),
      Memory.read_write_same]
  | 2 => rw [Memory.read_write_other _ _ (ne (by decide)), Memory.read_write_same]
  | 3 => rw [Memory.read_write_same]

theorem Memory.read_writeWord_other (m : Memory) (order : ByteOrder) (a v : Word) {b : Nat}
    (h : ∀ k, b ≠ byteAddr a k) : (m.writeWord order a v).read b = m.read b := by
  unfold Memory.writeWord
  rw [Memory.read_write_other _ _ (h 3), Memory.read_write_other _ _ (h 2), Memory.read_write_other _ _ (h 1),
    Memory.read_write_other _ _ (h 0)]

/-- A word written is the word read. -/
theorem Memory.readWord_writeWord_same (m : Memory) (order : ByteOrder) (a v : Word) :
    (m.writeWord order a v).readWord order a = some v := by
  simp only [Memory.readWord, Memory.read_writeWord_byte, assembleWord_bytes]

/-- Writing one aligned word leaves every other aligned word. -/
theorem Memory.readWord_writeWord_other (m : Memory) (order order' : ByteOrder) {a b : Word} (v : Word)
    (ha : isAligned a = true) (hb : isAligned b = true) (h : b ≠ a) :
    (m.writeWord order a v).readWord order' b = m.readWord order' b := by
  simp only [Memory.readWord, Memory.read_writeWord_other m order a v fun k => byteAddr_ne hb ha h _ k]

/-- A word is listed exactly when its four bytes are. -/
theorem Memory.readWord_isSome {m : Memory} {order : ByteOrder} {a : Word} :
    (m.readWord order a).isSome = true ↔ ∀ k, (m.read (byteAddr a k)).isSome = true := by
  have e : (∀ k, (m.read (byteAddr a k)).isSome = true) ↔
      (m.read (byteAddr a 0)).isSome = true ∧ (m.read (byteAddr a 1)).isSome = true ∧
      (m.read (byteAddr a 2)).isSome = true ∧ (m.read (byteAddr a 3)).isSome = true := by
    refine ⟨fun h => ⟨h 0, h 1, h 2, h 3⟩, fun ⟨h0, h1, h2, h3⟩ k => ?_⟩
    match k with
    | 0 => exact h0
    | 1 => exact h1
    | 2 => exact h2
    | 3 => exact h3
  rw [e]
  unfold Memory.readWord
  cases m.read (byteAddr a 0) <;> cases m.read (byteAddr a 1) <;> cases m.read (byteAddr a 2) <;>
    cases m.read (byteAddr a 3) <;> simp

/-- The word of four listed bytes at consecutive addresses. -/
theorem Memory.readWord_of_bytes {m : Memory} (order : ByteOrder) {a : Word} {b0 b1 b2 b3 : Byte}
    (ha : isAligned a = true) (h0 : m.read a.toNat = some b0) (h1 : m.read (a.toNat + 1) = some b1)
    (h2 : m.read (a.toNat + 2) = some b2) (h3 : m.read (a.toNat + 3) = some b3) :
    m.readWord order a = some (assembleWord order b0 b1 b2 b3) := by
  have e0 : byteAddr a 0 = a.toNat := byteAddr_of_aligned ha 0
  have e1 : byteAddr a 1 = a.toNat + 1 := byteAddr_of_aligned ha 1
  have e2 : byteAddr a 2 = a.toNat + 2 := byteAddr_of_aligned ha 2
  have e3 : byteAddr a 3 = a.toNat + 3 := byteAddr_of_aligned ha 3
  simp [Memory.readWord, e0, e1, e2, e3, h0, h1, h2, h3]

theorem Memory.mem_writeWord {m : Memory} {order : ByteOrder} {a v : Word} {c : Host.Cell}
    (h : c ∈ m.writeWord order a v) : (∃ k, c.1 = byteAddr a k) ∨ c ∈ m := by
  unfold Memory.writeWord at h
  rcases Memory.mem_write h with rfl | h
  · exact .inl ⟨3, rfl⟩
  rcases Memory.mem_write h with rfl | h
  · exact .inl ⟨2, rfl⟩
  rcases Memory.mem_write h with rfl | h
  · exact .inl ⟨1, rfl⟩
  rcases Memory.mem_write h with rfl | h
  · exact .inl ⟨0, rfl⟩
  exact .inr h

/-- Writing a word keeps the canonical form. -/
theorem Memory.wf_writeWord {m : Memory} (h : m.wf) (order : ByteOrder) (a v : Word) :
    (m.writeWord order a v).wf :=
  Memory.wf_write _ (Memory.wf_write _ (Memory.wf_write _ (Memory.wf_write _ h (byteAddr_lt a 0)) (byteAddr_lt a 1))
    (byteAddr_lt a 2)) (byteAddr_lt a 3)

theorem Memory.wf_nil : Memory.wf [] := by simp [Memory.wf]

/-- The host's images are in canonical form. -/
theorem Memory.wf_ofWords (order : ByteOrder) (image : List (Word × Word)) : (Memory.ofWords order image).wf := by
  unfold Memory.ofWords
  suffices ∀ m : Memory, m.wf → (image.foldl (fun m aw => m.writeWord order aw.1 aw.2) m).wf from this _ Memory.wf_nil
  induction image with
  | nil => exact fun _ h => h
  | cons aw image ih => exact fun m h => ih _ (Memory.wf_writeWord h order _ _)

/-- The memories of the reset state are in canonical form. -/
theorem reset_wf : State.reset.imem.wf ∧ State.reset.dmem.wf := ⟨Memory.wf_nil, Memory.wf_nil⟩

end Sys2Proof.Machine
end

