-- ==== Sys2Proof/Laws/State.lean ====
section
/-! SUPPORT. What each update of the state does to each field: one lemma per field, so that no proof unfolds a record
update. -/

namespace Sys2Proof.Machine

section
variable (s : State)

@[simp] theorem State.setPc_cfg (t : Word) : (s.setPc t).cfg = s.cfg := rfl
@[simp] theorem State.setPc_pc (t : Word) : (s.setPc t).pc = t := rfl
@[simp] theorem State.setPc_regs (t : Word) : (s.setPc t).regs = s.regs := rfl
@[simp] theorem State.setPc_written (t : Word) : (s.setPc t).written = s.written := rfl
@[simp] theorem State.setPc_imem (t : Word) : (s.setPc t).imem = s.imem := rfl
@[simp] theorem State.setPc_dmem (t : Word) : (s.setPc t).dmem = s.dmem := rfl
@[simp] theorem State.setPc_fault (t : Word) : (s.setPc t).fault = s.fault := rfl
@[simp] theorem State.setPc_draw (t : Word) : (s.setPc t).draw = s.draw := rfl

@[simp] theorem State.writeReg_cfg (i : RegNum) (v : Word) : (s.writeReg i v).cfg = s.cfg := by
  unfold State.writeReg; split <;> rfl
@[simp] theorem State.writeReg_pc (i : RegNum) (v : Word) : (s.writeReg i v).pc = s.pc := by
  unfold State.writeReg; split <;> rfl
@[simp] theorem State.writeReg_imem (i : RegNum) (v : Word) : (s.writeReg i v).imem = s.imem := by
  unfold State.writeReg; split <;> rfl
@[simp] theorem State.writeReg_dmem (i : RegNum) (v : Word) : (s.writeReg i v).dmem = s.dmem := by
  unfold State.writeReg; split <;> rfl
@[simp] theorem State.writeReg_fault (i : RegNum) (v : Word) : (s.writeReg i v).fault = s.fault := by
  unfold State.writeReg; split <;> rfl
@[simp] theorem State.writeReg_draw (i : RegNum) (v : Word) : (s.writeReg i v).draw = s.draw := by
  unfold State.writeReg; split <;> rfl

@[simp] theorem State.finishReg_cfg (i : RegNum) (v : Word) : (s.finishReg i v).cfg = s.cfg := by
  simp [State.finishReg]
@[simp] theorem State.finishReg_pc (i : RegNum) (v : Word) : (s.finishReg i v).pc = pcPlus4 s.pc := rfl
@[simp] theorem State.finishReg_regs (i : RegNum) (v : Word) : (s.finishReg i v).regs = (s.writeReg i v).regs := rfl
@[simp] theorem State.finishReg_written (i : RegNum) (v : Word) :
    (s.finishReg i v).written = (s.writeReg i v).written := rfl
@[simp] theorem State.finishReg_imem (i : RegNum) (v : Word) : (s.finishReg i v).imem = s.imem := by
  simp [State.finishReg]
@[simp] theorem State.finishReg_dmem (i : RegNum) (v : Word) : (s.finishReg i v).dmem = s.dmem := by
  simp [State.finishReg]
@[simp] theorem State.finishReg_fault (i : RegNum) (v : Word) : (s.finishReg i v).fault = s.fault := by
  simp [State.finishReg]
@[simp] theorem State.finishReg_draw (i : RegNum) (v : Word) : (s.finishReg i v).draw = s.draw := by
  simp [State.finishReg]

@[simp] theorem State.recordFault_cfg (f : Fault) : (s.recordFault f).cfg = s.cfg := by
  unfold State.recordFault; split <;> rfl
@[simp] theorem State.recordFault_pc (f : Fault) : (s.recordFault f).pc = s.pc := by
  unfold State.recordFault; split <;> rfl
@[simp] theorem State.recordFault_regs (f : Fault) : (s.recordFault f).regs = s.regs := by
  unfold State.recordFault; split <;> rfl
@[simp] theorem State.recordFault_written (f : Fault) : (s.recordFault f).written = s.written := by
  unfold State.recordFault; split <;> rfl
@[simp] theorem State.recordFault_imem (f : Fault) : (s.recordFault f).imem = s.imem := by
  unfold State.recordFault; split <;> rfl
@[simp] theorem State.recordFault_dmem (f : Fault) : (s.recordFault f).dmem = s.dmem := by
  unfold State.recordFault; split <;> rfl
@[simp] theorem State.recordFault_draw (f : Fault) : (s.recordFault f).draw = s.draw := by
  unfold State.recordFault; split <;> rfl
theorem State.recordFault_of_none (f : Fault) (h : s.fault = none) : (s.recordFault f).fault = some f := by
  simp [State.recordFault, h]
theorem State.recordFault_of_some (f g : Fault) (h : s.fault = some g) : s.recordFault f = s := by
  simp [State.recordFault, h]

@[simp] theorem State.loadAtPc_pc (w : Word) : (s.loadAtPc w).pc = s.pc := rfl
@[simp] theorem State.loadAtPc_regs (w : Word) : (s.loadAtPc w).regs = s.regs := rfl
@[simp] theorem State.loadAtPc_written (w : Word) : (s.loadAtPc w).written = s.written := rfl
@[simp] theorem State.loadAtPc_dmem (w : Word) : (s.loadAtPc w).dmem = s.dmem := rfl
@[simp] theorem State.loadAtPc_draw (w : Word) : (s.loadAtPc w).draw = s.draw := rfl
@[simp] theorem State.loadAtPc_fault (w : Word) : (s.loadAtPc w).fault = none := rfl
@[simp] theorem State.loadAtPc_imem (w : Word) :
    (s.loadAtPc w).imem = s.imem.writeWord s.cfg.byteOrder s.pc w := rfl
@[simp] theorem State.loadAtPc_byteOrder (w : Word) : (s.loadAtPc w).cfg.byteOrder = s.cfg.byteOrder := rfl
@[simp] theorem State.loadAtPc_endPc (w : Word) :
    (s.loadAtPc w).cfg.endPc = if s.cfg.endPc = s.pc then pcPlus4 s.pc else s.cfg.endPc := rfl

end

section
variable (cfg : Config) (program initDmem : Memory) (initRegs : RegFile) (n : Nat)

@[simp] theorem State.boot_cfg : (State.boot cfg program initDmem initRegs n).cfg = cfg := rfl
@[simp] theorem State.boot_pc : (State.boot cfg program initDmem initRegs n).pc = cfg.resetPc := rfl
@[simp] theorem State.boot_imem : (State.boot cfg program initDmem initRegs n).imem = program := rfl
@[simp] theorem State.boot_dmem : (State.boot cfg program initDmem initRegs n).dmem = initDmem := rfl
@[simp] theorem State.boot_fault : (State.boot cfg program initDmem initRegs n).fault = none := rfl
@[simp] theorem State.boot_draw : (State.boot cfg program initDmem initRegs n).draw = n := rfl
@[simp] theorem State.boot_isHardwired (i : RegNum) :
    (State.boot cfg program initDmem initRegs n).isHardwired i = (cfg.zeroRegHardwired && decide (i = 0#5)) := rfl

end

end Sys2Proof.Machine
end

