-- ==== Sys2Proof/Laws/Ops.lean ====
section
/-! SUPPORT. One lemma per shared operation that says what it can do; proofs cite these and do not unfold the
operations. -/

namespace Sys2Proof.Machine

/-! ## Registers -/

theorem RegFile.get_put (f : RegFile) (i k : RegNum) (v : Word) :
    RegFile.get (RegFile.put f i v) k = if k = i then v else RegFile.get f k := by
  unfold RegFile.get RegFile.put
  rw [Vector.getElem_set]
  by_cases h : k = i
  · subst h; simp
  · have h' : ¬ i.toNat = k.toNat := fun e => h (BitVec.eq_of_toNat_eq e).symm
    simp [h, h']

@[simp] theorem State.isHardwired_setPc (s : State) (t : Word) (i : RegNum) :
    (s.setPc t).isHardwired i = s.isHardwired i := rfl

@[simp] theorem State.isWritten_setPc (s : State) (t : Word) (i : RegNum) :
    (s.setPc t).isWritten i = s.isWritten i := rfl

@[simp] theorem State.readReg_setPc (s : State) (t : Word) (i : RegNum) : (s.setPc t).readReg i = s.readReg i := rfl

@[simp] theorem State.isHardwired_writeReg (s : State) (i k : RegNum) (v : Word) :
    (s.writeReg i v).isHardwired k = s.isHardwired k := by simp [State.isHardwired]

/-- A write to a hardwired register changes nothing (10_state.md R12). -/
theorem State.writeReg_of_hardwired {s : State} {i : RegNum} (h : s.isHardwired i = true) (v : Word) :
    s.writeReg i v = s := by simp [State.writeReg, h]

theorem State.writeReg_regs {s : State} {i : RegNum} (h : s.isHardwired i = false) (v : Word) :
    (s.writeReg i v).regs = RegFile.put s.regs i v := by simp [State.writeReg, h]

theorem State.writeReg_written {s : State} {i : RegNum} (h : s.isHardwired i = false) (v : Word) :
    (s.writeReg i v).written = s.written.set i.toNat true i.isLt := by simp [State.writeReg, h]

/-- The registers that count as written after a write. -/
theorem State.isWritten_writeReg (s : State) (i k : RegNum) (v : Word) :
    (s.writeReg i v).isWritten k = (s.isWritten k || (decide (k = i) && !s.isHardwired i)) := by
  cases hi : s.isHardwired i with
  | true => simp [State.writeReg_of_hardwired hi]
  | false =>
    unfold State.isWritten
    rw [State.isHardwired_writeReg]
    simp only [State.writeReg_written hi, Vector.getElem_set]
    by_cases h : k = i
    · subst h; simp
    · have h' : ¬ i.toNat = k.toNat := fun e => h (BitVec.eq_of_toNat_eq e).symm
      simp [h, h']

/-- A hardwired register reads 0 (10_state.md R12). -/
theorem State.readReg_of_hardwired {s : State} {i : RegNum} (h : s.isHardwired i = true) :
    s.readReg i = .ok 0#32 := by simp [State.readReg, h]

/-- What each register reads after a write (10_state.md R12, R13). -/
theorem State.readReg_writeReg (s : State) (i k : RegNum) (v : Word) :
    (s.writeReg i v).readReg k =
      if s.isHardwired k then .ok 0#32 else if k = i then .ok v else s.readReg k := by
  cases hk : s.isHardwired k with
  | true => simp [State.readReg, hk]
  | false =>
    cases hi : s.isHardwired i with
    | true =>
      have hne : ¬ k = i := fun e => by simp [e, hi] at hk
      simp [State.writeReg_of_hardwired hi, hne]
    | false =>
      unfold State.readReg
      rw [State.isHardwired_writeReg, State.isWritten_writeReg, hk]
      by_cases h : k = i
      · subst h; simp [hi, State.writeReg_regs hi, RegFile.get_put]
      · simp [h, State.writeReg_regs hi, RegFile.get_put]

/-- What each register reads after an instruction that writes register `i`. -/
theorem State.readReg_finishReg (s : State) (i k : RegNum) (v : Word) :
    (s.finishReg i v).readReg k =
      if s.isHardwired k then .ok 0#32 else if k = i then .ok v else s.readReg k :=
  s.readReg_writeReg i k v

/-- A register that counts as written never faults. -/
theorem State.readReg_of_isWritten {s : State} {i : RegNum} (h : s.isWritten i = true) :
    ∃ v, s.readReg i = .ok v := by
  cases hh : s.isHardwired i with
  | true => exact ⟨_, State.readReg_of_hardwired hh⟩
  | false => exact ⟨RegFile.get s.regs i, by simp [State.readReg, hh, h]⟩

/-- The one fault a register read can raise, and when (10_state.md R13; 60_exceptions.md R136). -/
theorem State.readReg_eq_error {s : State} {i : RegNum} {f : Fault} :
    s.readReg i = .error f ↔ s.isWritten i = false ∧ s.cfg.unwritten = .fault ∧ f = .unwrittenRegister i := by
  unfold State.readReg
  cases hh : s.isHardwired i
  · cases hw : s.isWritten i
    · cases hu : s.cfg.unwritten <;> simp [eq_comm]
    · simp
  · simp [State.isWritten, hh]

theorem State.withReg_of_ok {s : State} {i : RegNum} {v : Word} {k : Word → StepResult} (h : s.readReg i = .ok v) :
    s.withReg i k = k v := by simp [State.withReg, h]

theorem State.withReg_of_error {s : State} {i : RegNum} {f : Fault} {k : Word → StepResult}
    (h : s.readReg i = .error f) : s.withReg i k = .fault f := by simp [State.withReg, h]

/-- What a source read can do: stop with its own fault, or go on with its value. -/
theorem State.withReg_cases (s : State) (i : RegNum) (k : Word → StepResult) :
    (∃ v, s.readReg i = .ok v ∧ s.withReg i k = k v) ∨ (∃ f, s.readReg i = .error f ∧ s.withReg i k = .fault f) := by
  cases h : s.readReg i with
  | ok v => exact .inl ⟨v, rfl, State.withReg_of_ok h⟩
  | error f => exact .inr ⟨f, rfl, State.withReg_of_error h⟩

theorem State.withReg_eq_next {s : State} {i : RegNum} {k : Word → StepResult} {t : State} :
    s.withReg i k = .next t ↔ ∃ v, s.readReg i = .ok v ∧ k v = .next t := by
  cases h : s.readReg i <;> simp [State.withReg, h]

theorem State.withReg_eq_fault {s : State} {i : RegNum} {k : Word → StepResult} {f : Fault} :
    s.withReg i k = .fault f ↔ s.readReg i = .error f ∨ ∃ v, s.readReg i = .ok v ∧ k v = .fault f := by
  cases h : s.readReg i <;> simp [State.withReg, h]

/-- Registers at reset: the host's values, but for a hardwired register 0 (70_reset_and_hazards.md R150). -/
theorem State.boot_get (cfg : Config) (program initDmem : Memory) (initRegs : RegFile) (n : Nat) (i : RegNum)
    (h : (cfg.zeroRegHardwired && decide (i = 0#5)) = false) :
    RegFile.get (State.boot cfg program initDmem initRegs n).regs i = RegFile.get initRegs i := by
  simp only [State.boot]
  split
  · next hz =>
    have hi : ¬ 0 = i.toNat := fun e => by
      have : i = 0#5 := BitVec.eq_of_toNat_eq e.symm
      simp [hz, this] at h
    simp [RegFile.get, hi]
  · rfl

/-- Which registers count as written at reset (10_state.md R13): all under the policy `init`, else only a hardwired
register 0. -/
theorem State.boot_isWritten (cfg : Config) (program initDmem : Memory) (initRegs : RegFile) (n : Nat) (i : RegNum) :
    (State.boot cfg program initDmem initRegs n).isWritten i =
      (decide (cfg.unwritten = .init) || (cfg.zeroRegHardwired && decide (i = 0#5))) := by
  unfold State.isWritten
  rw [State.boot_isHardwired]
  simp only [State.boot]
  by_cases hu : cfg.unwritten = .init
  · simp [hu]
  · simp only [if_neg hu, Vector.getElem_set]
    by_cases hi : i = 0#5
    · subst hi; simp [hu]
    · have : ¬ 0 = i.toNat := fun e => hi (BitVec.eq_of_toNat_eq e.symm)
      simp [hu, hi, this]

/-! ## Data memory -/

/-- The address checks pass exactly for an aligned address of the domain (20_memory.md R33, R34). -/
theorem State.dataAddressFault_eq_none {s : State} {a : Word} :
    s.dataAddressFault a = none ↔ isAligned a = true ∧ s.inDmemDomain a = true := by
  unfold State.dataAddressFault
  cases isAligned a <;> cases s.inDmemDomain a <;> simp

theorem State.dataAddressFault_eq_some {s : State} {a : Word} {f : Fault} :
    s.dataAddressFault a = some f ↔
      (isAligned a = false ∧ f = .misalignedDataAddress s.pc a) ∨
      (isAligned a = true ∧ s.inDmemDomain a = false ∧ f = .dataAccessFault s.pc a) := by
  unfold State.dataAddressFault
  cases isAligned a <;> cases s.inDmemDomain a <;> simp [eq_comm]

/-- A store writes exactly when the checks pass, and then only the data memory (20_memory.md R34). -/
theorem State.memWrite_eq_ok {s t : State} {a v : Word} :
    s.memWrite a v = .ok t ↔ isAligned a = true ∧ s.inDmemDomain a = true ∧
      t = { s with dmem := s.dmem.writeWord s.cfg.byteOrder a v } := by
  unfold State.memWrite
  cases h : s.dataAddressFault a with
  | none => simp [(State.dataAddressFault_eq_none.1 h).1, (State.dataAddressFault_eq_none.1 h).2, eq_comm]
  | some f =>
    have hn : ¬ (isAligned a = true ∧ s.inDmemDomain a = true) := fun e => by
      rw [State.dataAddressFault_eq_none.2 e] at h; cases h
    simp only [reduceCtorEq, false_iff]
    exact fun e => hn ⟨e.1, e.2.1⟩

theorem State.memWrite_eq_error {s : State} {a v : Word} {f : Fault} :
    s.memWrite a v = .error f ↔ s.dataAddressFault a = some f := by
  unfold State.memWrite
  cases s.dataAddressFault a <;> simp

/-- A load of a word that is listed (20_memory.md R33). -/
theorem State.memRead_of_listed {s : State} {a v : Word} (ha : isAligned a = true) (hd : s.inDmemDomain a = true)
    (hv : s.dmem.readWord s.cfg.byteOrder a = some v) : s.memRead a = .ok v := by
  simp [State.memRead, State.dataAddressFault_eq_none.2 ⟨ha, hd⟩, hv]

/-- A load answers only for an aligned address of the domain. -/
theorem State.memRead_eq_ok {s : State} {a v : Word} (h : s.memRead a = .ok v) :
    isAligned a = true ∧ s.inDmemDomain a = true := by
  unfold State.memRead at h
  cases hf : s.dataAddressFault a with
  | none => exact State.dataAddressFault_eq_none.1 hf
  | some f => simp [hf] at h

/-- The faults of a load (20_memory.md R33, R35). -/
theorem State.memRead_eq_error {s : State} {a : Word} {f : Fault} :
    s.memRead a = .error f ↔ s.dataAddressFault a = some f ∨
      (s.dataAddressFault a = none ∧ s.dmem.readWord s.cfg.byteOrder a = none ∧ s.cfg.unwritten = .fault ∧
        f = .uninitialisedMemory s.pc a) := by
  unfold State.memRead
  cases s.dataAddressFault a with
  | some g => simp
  | none =>
    cases s.dmem.readWord s.cfg.byteOrder a with
    | some v => simp
    | none => cases s.cfg.unwritten <;> simp [eq_comm]

end Sys2Proof.Machine
end

