-- ==== Sys2Proof/Laws/Exec.lean ====
section
/-! SUPPORT. What the instructions and the step can do: the inversion lemmas every frame, invariant and whole-machine
rule is derived from. -/

namespace Sys2Proof.Machine

/-- An R-format instruction that answers a next state has read both sources and written its result. -/
theorem State.rFormat_eq_next {s t : State} {rd rs rt : RegNum} {ov : Word → Word → Bool}
    {g : Word → Word → Word} :
    s.rFormat rd rs rt ov g = .next t ↔ ∃ a b, s.readReg rs = .ok a ∧ s.readReg rt = .ok b ∧
      ¬ (s.cfg.overflow = .fault ∧ ov a b = true) ∧ t = s.finishReg rd (g a b) := by
  unfold State.rFormat
  simp only [State.withReg_eq_next]
  constructor
  · rintro ⟨a, ha, b, hb, h⟩
    split at h
    · cases h
    · next hc => exact ⟨a, b, ha, hb, hc, by cases h; rfl⟩
  · rintro ⟨a, b, ha, hb, hc, rfl⟩
    exact ⟨a, ha, b, hb, if_neg hc⟩

/-- The faults of an R-format instruction, in their order (60_exceptions.md R142). -/
theorem State.rFormat_eq_fault {s : State} {rd rs rt : RegNum} {ov : Word → Word → Bool} {g : Word → Word → Word}
    {f : Fault} :
    s.rFormat rd rs rt ov g = .fault f ↔ s.readReg rs = .error f ∨ ∃ a, s.readReg rs = .ok a ∧
      (s.readReg rt = .error f ∨ ∃ b, s.readReg rt = .ok b ∧ s.cfg.overflow = .fault ∧ ov a b = true ∧
        f = .arithmeticOverflow s.pc) := by
  unfold State.rFormat
  simp only [State.withReg_eq_fault]
  refine or_congr_right (exists_congr fun a => and_congr_right fun _ => or_congr_right (exists_congr fun b =>
    and_congr_right fun _ => ?_))
  split
  · next h => simp [h.1, h.2, eq_comm]
  · next h =>
    simp only [reduceCtorEq, false_iff]
    exact fun e => h ⟨e.1, e.2.1⟩

theorem execLw_eq_next {s t : State} {rt rs : RegNum} {imm : Imm16} :
    execLw rt rs imm s = .next t ↔ ∃ base v, s.readReg rs = .ok base ∧
      s.memRead (effectiveAddress base imm) = .ok v ∧ t = s.finishReg rt v := by
  unfold execLw
  simp only [State.withReg_eq_next]
  refine exists_congr fun base => ?_
  cases s.memRead (effectiveAddress base imm) <;> simp [eq_comm]

theorem execLw_eq_fault {s : State} {rt rs : RegNum} {imm : Imm16} {f : Fault} :
    execLw rt rs imm s = .fault f ↔ s.readReg rs = .error f ∨ ∃ base, s.readReg rs = .ok base ∧
      s.memRead (effectiveAddress base imm) = .error f := by
  unfold execLw
  simp only [State.withReg_eq_fault]
  refine or_congr_right (exists_congr fun base => and_congr_right fun _ => ?_)
  cases s.memRead (effectiveAddress base imm) <;> simp

theorem execSw_eq_next {s t : State} {rt rs : RegNum} {imm : Imm16} :
    execSw rt rs imm s = .next t ↔ ∃ base v, s.readReg rs = .ok base ∧ s.readReg rt = .ok v ∧
      isAligned (effectiveAddress base imm) = true ∧ s.inDmemDomain (effectiveAddress base imm) = true ∧
      t = { s with pc := pcPlus4 s.pc,
                   dmem := s.dmem.writeWord s.cfg.byteOrder (effectiveAddress base imm) v } := by
  unfold execSw
  simp only [State.withReg_eq_next]
  constructor
  · rintro ⟨base, hb, v, hv, h⟩
    cases hm : s.memWrite (effectiveAddress base imm) v with
    | error f => simp [hm] at h
    | ok u =>
      obtain ⟨h1, h2, rfl⟩ := State.memWrite_eq_ok.1 hm
      rw [hm] at h
      exact ⟨base, v, hb, hv, h1, h2, by cases h; rfl⟩
  · rintro ⟨base, v, hb, hv, h1, h2, rfl⟩
    refine ⟨base, hb, v, hv, ?_⟩
    rw [State.memWrite_eq_ok.2 ⟨h1, h2, rfl⟩]
    rfl

theorem execSw_eq_fault {s : State} {rt rs : RegNum} {imm : Imm16} {f : Fault} :
    execSw rt rs imm s = .fault f ↔ s.readReg rs = .error f ∨ ∃ base, s.readReg rs = .ok base ∧
      (s.readReg rt = .error f ∨ ∃ v, s.readReg rt = .ok v ∧
        s.dataAddressFault (effectiveAddress base imm) = some f) := by
  unfold execSw
  simp only [State.withReg_eq_fault]
  refine or_congr_right (exists_congr fun base => and_congr_right fun _ => or_congr_right (exists_congr fun v =>
    and_congr_right fun _ => ?_))
  rw [← State.memWrite_eq_error (v := v)]
  cases s.memWrite (effectiveAddress base imm) v <;> simp

theorem execBeq_eq_next {s t : State} {rs rt : RegNum} {imm : Imm16} :
    execBeq rs rt imm s = .next t ↔ ∃ a b, s.readReg rs = .ok a ∧ s.readReg rt = .ok b ∧
      t = s.setPc (if aluZero (a - b) then branchTarget s.pc imm else pcPlus4 s.pc) := by
  unfold execBeq
  simp only [State.withReg_eq_next, Host.Outcome.next.injEq]
  constructor
  · rintro ⟨a, ha, b, hb, rfl⟩; exact ⟨a, b, ha, hb, rfl⟩
  · rintro ⟨a, b, ha, hb, rfl⟩; exact ⟨a, ha, b, hb, rfl⟩

theorem execBeq_eq_fault {s : State} {rs rt : RegNum} {imm : Imm16} {f : Fault} :
    execBeq rs rt imm s = .fault f ↔ s.readReg rs = .error f ∨ ∃ a, s.readReg rs = .ok a ∧ s.readReg rt = .error f := by
  unfold execBeq
  simp [State.withReg_eq_fault]

/-- `a - b = 0` exactly when `a = b` (40_arithmetic_logic.md R72). -/
theorem aluZero_sub (a b : Word) : aluZero (a - b) = decide (a = b) := by
  have h : a - b = 0#32 ↔ a = b := by
    constructor
    · intro h
      have := congrArg (· + b) h
      simpa [BitVec.sub_add_cancel] using this
    · rintro rfl; exact BitVec.sub_self a
  by_cases e : a = b
  · simp [aluZero, e]
  · simp [aluZero, e, h]

/-- What an instruction that answers a next state has done: written one register and gone on (R-format and `lw`),
stored one word and gone on (`sw`), or only replaced the pc (`beq`, `j`). -/
theorem exec_eq_next {i : Instr} {s t : State} (h : exec i s = .next t) :
    (∃ r v, t = s.finishReg r v) ∨
    (∃ rt rs imm base v, i = .sw rt rs imm ∧ s.readReg rs = .ok base ∧ s.readReg rt = .ok v ∧
      isAligned (effectiveAddress base imm) = true ∧
      s.inDmemDomain (effectiveAddress base imm) = true ∧
      t = { s with pc := pcPlus4 s.pc,
                   dmem := s.dmem.writeWord s.cfg.byteOrder (effectiveAddress base imm) v }) ∨
    ((∃ imm, t = s.setPc (branchTarget s.pc imm)) ∨ t = s.setPc (pcPlus4 s.pc) ∨
      ∃ imm26, i = .j imm26 ∧ t = s.setPc (jumpTarget s.pc imm26)) := by
  cases i with
  | add rd rs rt => obtain ⟨a, b, -, -, -, rfl⟩ := State.rFormat_eq_next.1 h; exact .inl ⟨_, _, rfl⟩
  | sub rd rs rt => obtain ⟨a, b, -, -, -, rfl⟩ := State.rFormat_eq_next.1 h; exact .inl ⟨_, _, rfl⟩
  | and rd rs rt => obtain ⟨a, b, -, -, -, rfl⟩ := State.rFormat_eq_next.1 h; exact .inl ⟨_, _, rfl⟩
  | or rd rs rt => obtain ⟨a, b, -, -, -, rfl⟩ := State.rFormat_eq_next.1 h; exact .inl ⟨_, _, rfl⟩
  | slt rd rs rt => obtain ⟨a, b, -, -, -, rfl⟩ := State.rFormat_eq_next.1 h; exact .inl ⟨_, _, rfl⟩
  | lw rt rs imm => obtain ⟨base, v, -, -, rfl⟩ := execLw_eq_next.1 h; exact .inl ⟨_, _, rfl⟩
  | sw rt rs imm =>
    obtain ⟨base, v, hb, hv, h1, h2, rfl⟩ := execSw_eq_next.1 h
    exact .inr (.inl ⟨rt, rs, imm, base, v, rfl, hb, hv, h1, h2, rfl⟩)
  | beq rs rt imm =>
    obtain ⟨a, b, -, -, rfl⟩ := execBeq_eq_next.1 h
    refine .inr (.inr ?_)
    split
    · exact .inl ⟨imm, rfl⟩
    · exact .inr (.inl rfl)
  | j imm26 =>
    cases h
    exact .inr (.inr (.inr (.inr ⟨imm26, rfl, rfl⟩)))

/-- The faults an instruction can raise, with what each records (60_exceptions.md R131). -/
theorem exec_eq_fault {i : Instr} {s : State} {f : Fault} (h : exec i s = .fault f) :
    (∃ r, f = .unwrittenRegister r) ∨ f = .arithmeticOverflow s.pc ∨ (∃ a, f = .misalignedDataAddress s.pc a) ∨
    (∃ a, f = .dataAccessFault s.pc a) ∨ ∃ a, f = .uninitialisedMemory s.pc a := by
  have reg : ∀ {r}, s.readReg r = .error f → ∃ r, f = .unwrittenRegister r :=
    fun h => ⟨_, (State.readReg_eq_error.1 h).2.2⟩
  have addr : ∀ {a}, s.dataAddressFault a = some f →
      (∃ a, f = .misalignedDataAddress s.pc a) ∨ ∃ a, f = .dataAccessFault s.pc a := by
    intro a h
    rcases State.dataAddressFault_eq_some.1 h with ⟨-, h⟩ | ⟨-, -, h⟩
    · exact .inl ⟨_, h⟩
    · exact .inr ⟨_, h⟩
  have rFormat : ∀ {rd rs rt ov g}, s.rFormat rd rs rt ov g = .fault f →
      (∃ r, f = .unwrittenRegister r) ∨ f = .arithmeticOverflow s.pc := by
    intro rd rs rt ov g h
    rcases State.rFormat_eq_fault.1 h with h | ⟨a, -, h | ⟨b, -, -, -, h⟩⟩
    · exact .inl (reg h)
    · exact .inl (reg h)
    · exact .inr h
  cases i with
  | add rd rs rt => rcases rFormat h with h | h <;> simp [h]
  | sub rd rs rt => rcases rFormat h with h | h <;> simp [h]
  | and rd rs rt => rcases rFormat h with h | h <;> simp [h]
  | or rd rs rt => rcases rFormat h with h | h <;> simp [h]
  | slt rd rs rt => rcases rFormat h with h | h <;> simp [h]
  | lw rt rs imm =>
    rcases execLw_eq_fault.1 h with h | ⟨b, -, h⟩
    · exact .inl (reg h)
    · rcases State.memRead_eq_error.1 h with h | ⟨-, -, -, h⟩
      · exact (addr h).elim (fun h => .inr (.inr (.inl h))) fun h => .inr (.inr (.inr (.inl h)))
      · exact .inr (.inr (.inr (.inr ⟨_, h⟩)))
  | sw rt rs imm =>
    rcases execSw_eq_fault.1 h with h | ⟨b, -, h | ⟨v, -, h⟩⟩
    · exact .inl (reg h)
    · exact .inl (reg h)
    · exact (addr h).elim (fun h => .inr (.inr (.inl h))) fun h => .inr (.inr (.inr (.inl h)))
  | beq rs rt imm =>
    rcases execBeq_eq_fault.1 h with h | ⟨a, -, h⟩
    · exact .inl (reg h)
    · exact .inl (reg h)
  | j imm26 => cases h

theorem State.withReg_ne_refused {s : State} {i : RegNum} {k : Word → StepResult} {r : Refusal}
    (h : ∀ v, k v ≠ .refused r) : s.withReg i k ≠ .refused r := by
  rcases State.withReg_cases s i k with ⟨v, -, e⟩ | ⟨f, -, e⟩
  · exact e ▸ h v
  · simp [e]

theorem State.rFormat_ne_refused {s : State} {rd rs rt : RegNum} {ov : Word → Word → Bool} {g : Word → Word → Word}
    {r : Refusal} : s.rFormat rd rs rt ov g ≠ .refused r :=
  State.withReg_ne_refused fun a => State.withReg_ne_refused fun b => by split <;> simp

/-- No instruction is refused. -/
theorem exec_ne_refused (i : Instr) (s : State) (r : Refusal) : exec i s ≠ .refused r := by
  cases i with
  | add rd rs rt => exact State.rFormat_ne_refused
  | sub rd rs rt => exact State.rFormat_ne_refused
  | and rd rs rt => exact State.rFormat_ne_refused
  | or rd rs rt => exact State.rFormat_ne_refused
  | slt rd rs rt => exact State.rFormat_ne_refused
  | lw rt rs imm => exact State.withReg_ne_refused fun base => by split <;> simp
  | sw rt rs imm =>
    exact State.withReg_ne_refused fun base => State.withReg_ne_refused fun v => by split <;> simp
  | beq rs rt imm => exact State.withReg_ne_refused fun a => State.withReg_ne_refused fun b => by simp
  | j imm26 => simp [exec, execJ]

/-! ## The step -/

/-- The start of a cycle gives a word exactly when the configuration is admitted, no fault is recorded, the run is not
over and the pc is in `IMEM_DOMAIN`. -/
theorem State.cycleWord_eq_next {s : State} {w : Word} :
    s.cycleWord = .next w ↔ s.cfg.admitted = true ∧ s.fault = none ∧ s.pc ≠ s.cfg.endPc ∧
      isAligned s.pc = true ∧ s.imem.readWord s.cfg.byteOrder s.pc = some w := by
  unfold State.cycleWord State.runOver State.iFetch
  cases s.cfg.admitted with
  | false => simp
  | true =>
    cases s.fault with
    | some f => simp
    | none =>
      by_cases he : s.pc = s.cfg.endPc
      · simp [he]
      · cases isAligned s.pc with
        | false => simp [he]
        | true => cases s.imem.readWord s.cfg.byteOrder s.pc <;> simp [he]

/-- A step that answers a next state executed the instruction decoded from the word at the pc. -/
theorem step_eq_next {s t : State} (h : step s = .next t) :
    ∃ w i, s.cycleWord = .next w ∧ decode w = .ok i ∧ exec i s = .next t := by
  unfold step State.cycleInstr at h
  cases hw : s.cycleWord with
  | fault f => simp [hw] at h
  | refused r => simp [hw] at h
  | next w =>
    cases hd : decode w with
    | error e => simp [hw, hd] at h
    | ok i => simp only [hw, hd] at h; exact ⟨w, i, rfl, hd, h⟩

/-- The step on a word that decodes is that instruction's meaning. -/
theorem step_of_decode {s : State} {w : Word} {i : Instr} (hw : s.cycleWord = .next w) (hd : decode w = .ok i) :
    step s = exec i s := by
  simp [step, State.cycleInstr, hw, hd]

end Sys2Proof.Machine
end

