-- ==== Sys2Proof/Laws/Operands.lean ====
section
/-! SUPPORT. The operand forms: the three next pcs of 10_state.md R16 stay multiples of 4 (R15), and what the shifted
immediate is as a number. -/

namespace Sys2Proof.Machine

theorem isAligned_pcPlus4 {pc : Word} (h : isAligned pc = true) : isAligned (pcPlus4 pc) = true := by
  rw [isAligned_iff] at *
  unfold pcPlus4
  rw [BitVec.toNat_add, show (4#32).toNat = 4 from rfl]
  omega

theorem isAligned_branchTarget {pc : Word} (h : isAligned pc = true) (imm : Imm16) :
    isAligned (branchTarget pc imm) = true := by
  have h := isAligned_pcPlus4 h
  rw [isAligned_iff] at *
  unfold branchTarget
  rw [BitVec.toNat_add, BitVec.toNat_shiftLeft, Nat.shiftLeft_eq]
  omega

theorem isAligned_jumpTarget (pc : Word) (imm26 : Imm26) : isAligned (jumpTarget pc imm26) = true := by
  rw [isAligned_iff]
  unfold jumpTarget
  rw [BitVec.toNat_append, ← Nat.shiftLeft_add_eq_or_of_lt (by decide), Nat.shiftLeft_eq,
    show (0b00#2).toNat = 0 from rfl]
  omega

/-- "`sext_32(imm) << 2` equals `4 * signed16(imm)` modulo 2^32 exactly" (42_branch_jump.md R92). -/
theorem sext32_shift (imm : Imm16) : sext32 imm <<< 2 = BitVec.ofInt 32 (4 * imm.toInt) := by
  apply BitVec.eq_of_toInt_eq
  have h : (sext32 imm).toInt = imm.toInt := BitVec.toInt_signExtend_of_le (by decide)
  have e : sext32 imm <<< 2 = sext32 imm * 4#32 := by
    rw [BitVec.shiftLeft_eq_mul_twoPow]; rfl
  rw [e, BitVec.toInt_mul, h, BitVec.toInt_ofInt, show (4#32).toInt = 4 by decide, Int.mul_comm]

end Sys2Proof.Machine
end

