-- ==== Sys2Proof/Laws/PerInstr.lean ====
section
/-! SUPPORT. Statements about every instruction as syntax, one lemma per constructor. -/

namespace Sys2Proof.Laws.EncodeMatchesRow

/-- The word of an instruction has the pattern of the instruction's own row of 30_encoding.md R57. -/
def Statement (i : Instr) : Prop := ∃ r ∈ opcodeRows, r.mnemonic = i.mnemonic ∧ r.Matches (encode i)

theorem add (rd rs rt : RegNum) : Statement (.add rd rs rt) :=
  ⟨⟨"add", 0x00000020#32, 0xFC0007FF#32⟩, by simp [opcodeRows], rfl,
    encodeR_matches _ _ _ _ _ (by decide) (by decide) (by decide) (by decide)⟩

theorem sub (rd rs rt : RegNum) : Statement (.sub rd rs rt) :=
  ⟨⟨"sub", 0x00000022#32, 0xFC0007FF#32⟩, by simp [opcodeRows], rfl,
    encodeR_matches _ _ _ _ _ (by decide) (by decide) (by decide) (by decide)⟩

theorem and (rd rs rt : RegNum) : Statement (.and rd rs rt) :=
  ⟨⟨"and", 0x00000024#32, 0xFC0007FF#32⟩, by simp [opcodeRows], rfl,
    encodeR_matches _ _ _ _ _ (by decide) (by decide) (by decide) (by decide)⟩

theorem or (rd rs rt : RegNum) : Statement (.or rd rs rt) :=
  ⟨⟨"or", 0x00000025#32, 0xFC0007FF#32⟩, by simp [opcodeRows], rfl,
    encodeR_matches _ _ _ _ _ (by decide) (by decide) (by decide) (by decide)⟩

theorem slt (rd rs rt : RegNum) : Statement (.slt rd rs rt) :=
  ⟨⟨"slt", 0x0000002A#32, 0xFC0007FF#32⟩, by simp [opcodeRows], rfl,
    encodeR_matches _ _ _ _ _ (by decide) (by decide) (by decide) (by decide)⟩

theorem lw (rt rs : RegNum) (imm : Imm16) : Statement (.lw rt rs imm) :=
  ⟨⟨"lw", 0x8C000000#32, 0xFC000000#32⟩, by simp [opcodeRows], rfl,
    encodeI_matches _ _ _ _ _ (by decide) (by decide)⟩

theorem sw (rt rs : RegNum) (imm : Imm16) : Statement (.sw rt rs imm) :=
  ⟨⟨"sw", 0xAC000000#32, 0xFC000000#32⟩, by simp [opcodeRows], rfl,
    encodeI_matches _ _ _ _ _ (by decide) (by decide)⟩

theorem beq (rs rt : RegNum) (imm : Imm16) : Statement (.beq rs rt imm) :=
  ⟨⟨"beq", 0x10000000#32, 0xFC000000#32⟩, by simp [opcodeRows], rfl,
    encodeI_matches _ _ _ _ _ (by decide) (by decide)⟩

theorem j (imm26 : Imm26) : Statement (.j imm26) :=
  ⟨⟨"j", 0x08000000#32, 0xFC000000#32⟩, by simp [opcodeRows], rfl,
    encodeJ_matches _ _ _ (by decide) (by decide)⟩

end Sys2Proof.Laws.EncodeMatchesRow
end

