-- ==== Sys2Proof/Tests/Slice0.lean ====
section
/-! SUPPORT. Tests. Words and results are those of 95_test_vectors.md; a test without a source named there is worked
out by hand from the rule its comment cites. The `test_witness_` theorems show values that meet the hypotheses of each
statement. -/

namespace Sys2Proof.Tests

open Sys2Proof Sys2Proof.Machine

/-! ## Helpers -/

/-- The default parameters with another policy for unwritten values. -/
def withPolicy (p : UnwrittenPolicy) : Config := { Config.default with unwritten := p }

/-- The default parameters with `OVERFLOW_POLICY` = `fault`. -/
def trapping : Config := { Config.default with overflow := .fault }

/-- The default parameters with the data addresses 0x00000000 to 0x000000FC only. -/
def smallData : Config := { Config.default with dmemDomain := [⟨0, 64⟩] }

/-- The default parameters with an ordinary register 0. -/
def plainZero : Config := { Config.default with zeroRegHardwired := false }

/-- A state after reset with the given pc, x[1], x[2] and data words. -/
def stateWith (cfg : Config) (pc r1 r2 : Word) (words : List (Word × Word)) : State :=
  { State.boot cfg [] (Memory.ofWords cfg.byteOrder words) (((Vector.replicate 32 0#32).set 1 r1).set 2 r2) 0 with
    pc := pc }

/-- What a step leaves in register `i`. -/
def regAfter (o : StepResult) (i : RegNum) : Option Word :=
  match o with
  | .next t => some (RegFile.get t.regs i)
  | _       => none

/-- The pc a step leaves. -/
def pcAfter (o : StepResult) : Option Word :=
  match o with
  | .next t => some t.pc
  | _       => none

/-- The data word a step leaves at an address. -/
def wordAfter (o : StepResult) (a : Word) : Option Word :=
  match o with
  | .next t => t.dmem.readWord t.cfg.byteOrder a
  | _       => none

/-- The next state of an outcome, `s` where there is none. -/
def stateAfter (s : State) (o : StepResult) : State :=
  match o with
  | .next t => t
  | _       => s

/-- The fault an outcome is. -/
def faultOf {α : Type} (o : Host.Outcome α Fault Refusal) : Option Fault :=
  match o with
  | .fault f => some f
  | _        => none

/-- An outcome is a next state. -/
def isNext {α : Type} (o : Host.Outcome α Fault Refusal) : Bool :=
  match o with
  | .next _ => true
  | _       => false

/-- The word an outcome of the fetch is. -/
def fetched (o : Host.Outcome Word Fault Refusal) : Option Word :=
  match o with
  | .next w => some w
  | _       => none

theorem eq_fault {α : Type} {o : Host.Outcome α Fault Refusal} {f : Fault} (h : faultOf o = some f) :
    o = .fault f := by
  cases o with
  | fault g => exact congrArg _ (Option.some.inj h)
  | next _ => cases h
  | refused _ => cases h

theorem eq_next {α : Type} {o : Host.Outcome α Fault Refusal} (h : isNext o = true) : ∃ t, o = .next t := by
  cases o with
  | next t => exact ⟨t, rfl⟩
  | fault _ => cases h
  | refused _ => cases h

theorem eq_stateAfter {s : State} {o : StepResult} (h : isNext o = true) : o = .next (stateAfter s o) := by
  cases o with
  | next _ => rfl
  | fault _ => cases h
  | refused _ => cases h

theorem eq_fetched {o : Host.Outcome Word Fault Refusal} {w : Word} (h : fetched o = some w) : o = .next w := by
  cases o with
  | next _ => exact congrArg _ (Option.some.inj h)
  | fault _ => cases h
  | refused _ => cases h

/-- The reset state with one word of program at its pc. -/
def loaded (w : Nat) : State := State.reset.withFetchWord 32 w

/-! ## Decoding (95_test_vectors.md 2.1) -/

-- 000000 00001 00010 00011 00000 100000
theorem test_decode_add : decode 0b00000000001000100001100000100000#32 = .ok (.add 3#5 1#5 2#5) := by decide
-- 000000 00001 00010 00011 00000 100010
theorem test_decode_sub : decode 0b00000000001000100001100000100010#32 = .ok (.sub 3#5 1#5 2#5) := by decide
-- 000000 00001 00010 00011 00000 100100
theorem test_decode_and : decode 0b00000000001000100001100000100100#32 = .ok (.and 3#5 1#5 2#5) := by decide
-- 000000 00001 00010 00011 00000 100101
theorem test_decode_or : decode 0b00000000001000100001100000100101#32 = .ok (.or 3#5 1#5 2#5) := by decide
-- 000000 00010 00001 00011 00000 101010
theorem test_decode_slt : decode 0b00000000010000010001100000101010#32 = .ok (.slt 3#5 2#5 1#5) := by decide
-- 100011 00001 00010 0000000000001000
theorem test_decode_lw : decode 0b10001100001000100000000000001000#32 = .ok (.lw 2#5 1#5 8#16) := by decide
-- 101011 00001 00010 1111111111111100
theorem test_decode_sw : decode 0b10101100001000101111111111111100#32 = .ok (.sw 2#5 1#5 0xFFFC#16) := by decide
-- 000100 00001 00010 0000000000000011
theorem test_decode_beq : decode 0b00010000001000100000000000000011#32 = .ok (.beq 1#5 2#5 3#16) := by decide
-- 000010 00000000000000000100000000
theorem test_decode_j : decode 0b00001000000000000000000100000000#32 = .ok (.j 0x100#26) := by decide

/-- The lowest legal R-format word and a word with three different high register numbers. -/
theorem test_decode_registers :
    decode 0x00000020#32 = .ok (.add 0#5 0#5 0#5) ∧ decode 0x03DDF820#32 = .ok (.add 31#5 30#5 29#5) := by decide

/-- The illegal words of 2.1. -/
theorem test_decode_illegal :
    ∀ w ∈ [0x00000000#32, 0x00221821#32, 0x00221860#32, 0x00221800#32, 0x0022182B#32, 0x20220001#32, 0x0C000000#32,
      0x14220003#32, 0xFFFFFFFF#32], ∃ e, decode w = .error e := by
  intro w h
  simp only [List.mem_cons, List.not_mem_nil, or_false] at h
  rcases h with rfl | rfl | rfl | rfl | rfl | rfl | rfl | rfl | rfl <;> exact ⟨_, rfl⟩

/-- The encoder against the words of 2.1. -/
theorem test_encode :
    encode (.sub 3#5 1#5 2#5) = 0x00221822#32 ∧ encode (.lw 1#5 2#5 0x8000#16) = 0x8C418000#32 ∧
    encode (.sw 31#5 31#5 0x7FFF#16) = 0xAFFF7FFF#32 ∧ encode (.beq 0#5 0#5 0xFFFF#16) = 0x1000FFFF#32 ∧
    encode (.j 0x3FFFFFF#26) = 0x0BFFFFFF#32 := by decide

/-- Bytes 00 22 18 20 in big-endian order, and the same word in little-endian order (20_memory.md R30). -/
theorem test_decode_bytes :
    decodeBytes .big [0x00#8, 0x22#8, 0x18#8, 0x20#8, 0xFF#8] = .ok (.add 3#5 1#5 2#5, [0xFF#8]) ∧
    decodeBytes .little [0x20#8, 0x18#8, 0x22#8, 0x00#8] = .ok (.add 3#5 1#5 2#5, []) ∧
    decodeBytes .big [0x00#8, 0x22#8, 0x18#8] = .error .truncated := by decide

theorem test_decode_table_word :
    decodeTableWord 32 0x00221820 = some (.add 3#5 1#5 2#5) ∧ decodeTableWord 32 0 = none := by decide

/-! ## Well-formedness: each check refuses something -/

theorem test_wf_legal :
    Asm.wellFormed 0x10#32 (.rFormat .add 31 0 31) = true ∧ Asm.wellFormed 0x10#32 (.lw 2 (-32768) 1) = true ∧
    Asm.wellFormed 0x10#32 (.sw 2 32767 1) = true ∧ Asm.wellFormed 0x10#32 (.beq 1 2 (.label 0x20#32)) = true ∧
    Asm.wellFormed 0x10#32 (.j (.label 0x0FFFFFFC#32)) = true := by decide

theorem test_wf_register :
    Asm.wellFormed 0#32 (.rFormat .add 32 0 0) = false ∧ Asm.wellFormed 0#32 (.rFormat .or 0 32 0) = false ∧
    Asm.wellFormed 0#32 (.rFormat .slt 0 0 32) = false ∧ Asm.wellFormed 0#32 (.lw 32 0 0) = false ∧
    Asm.wellFormed 0#32 (.lw 0 0 32) = false ∧ Asm.wellFormed 0#32 (.sw 32 0 0) = false ∧
    Asm.wellFormed 0#32 (.sw 0 0 32) = false ∧ Asm.wellFormed 0#32 (.beq 32 0 (.field 0)) = false ∧
    Asm.wellFormed 0#32 (.beq 0 32 (.field 0)) = false := by decide

theorem test_wf_immediate :
    Asm.wellFormed 0#32 (.lw 0 (-32769) 0) = false ∧ Asm.wellFormed 0#32 (.sw 0 32768 0) = false ∧
    Asm.wellFormed 0#32 (.beq 0 0 (.field 32768)) = false ∧ Asm.wellFormed 0#32 (.beq 0 0 (.field (-32769))) = false := by
  decide

/-- 30_encoding.md R64: a label of `beq` off a multiple of 4, one word too far ahead, one word too far behind. -/
theorem test_wf_branch_label :
    Asm.wellFormed 0#32 (.beq 0 0 (.label 6#32)) = false ∧ Asm.wellFormed 0#32 (.beq 0 0 (.label 0x20004#32)) = false ∧
    Asm.wellFormed 0x40000#32 (.beq 0 0 (.label 0x20000#32)) = false := by decide

/-- 30_encoding.md R62, R64: a field of `j` out of range, a label off a multiple of 4, a label in another region. -/
theorem test_wf_jump :
    Asm.wellFormed 0#32 (.j (.field 67108864)) = false ∧ Asm.wellFormed 0#32 (.j (.field (-1))) = false ∧
    Asm.wellFormed 0#32 (.j (.label 2#32)) = false ∧ Asm.wellFormed 0#32 (.j (.label 0x10000000#32)) = false := by
  decide

/-- 93_implementation_defined.md U16. -/
theorem test_wf_config :
    Config.admitted Config.default = true ∧ Config.admitted { Config.default with resetPc := 2#32 } = false ∧
    Config.admitted { Config.default with endPc := 1#32 } = false ∧
    Config.admitted { Config.default with dmemDomain := [⟨2, 1⟩] } = false ∧
    Config.admitted { Config.default with dmemDomain := [⟨4, 1073741824⟩] } = false := by decide

/-- Assembled lines of 2.1 and of program P4 (`j` at 0x00400010 to 0x00400018). -/
theorem test_assemble :
    assemble 0#32 (.rFormat .slt 3 1 2) = some (.slt 3#5 1#5 2#5) ∧
    assemble 0#32 (.lw 1 (-32768) 2) = some (.lw 1#5 2#5 0x8000#16) ∧
    assemble 0x00400010#32 (.j (.label 0x00400018#32)) = some (.j 0x100006#26) ∧
    assemble 0x00400024#32 (.beq 0 0 (.label 0x00400018#32)) = some (.beq 0#5 0#5 0xFFFC#16) ∧
    assemble 0#32 (.lw 32 0 0) = none := by decide

/-! ## One step of each instruction (95_test_vectors.md 2.2 to 2.5) -/

-- row 3 of 2.2: 0x7FFFFFFF + 1 wraps
theorem test_add_wraps :
    regAfter (exec (.add 3#5 1#5 2#5) (stateWith Config.default 0#32 0x7FFFFFFF#32 1#32 [])) 3#5 = some 0x80000000#32 := by
  decide

-- 2.7, last row
theorem test_add_overflow_fault :
    faultOf (exec (.add 3#5 1#5 2#5) (stateWith trapping 8#32 0x7FFFFFFF#32 1#32 [])) =
      some (.arithmeticOverflow 8#32) := by decide

-- row 2 of 2.2: 5 - 7, first operand minus second
theorem test_sub_order :
    regAfter (exec (.sub 3#5 1#5 2#5) (stateWith Config.default 0#32 5#32 7#32 [])) 3#5 = some 0xFFFFFFFE#32 := by decide

-- row 8 of 2.2 under `OVERFLOW_POLICY` = `fault`
theorem test_sub_overflow_fault :
    faultOf (exec (.sub 3#5 1#5 2#5) (stateWith trapping 4#32 0x80000000#32 0x7FFFFFFF#32 [])) =
      some (.arithmeticOverflow 4#32) := by decide

-- row 11 of 2.2
theorem test_and_bits :
    regAfter (exec (.and 3#5 1#5 2#5) (stateWith Config.default 0#32 0x12345678#32 0x0F0F0F0F#32 [])) 3#5 =
      some 0x02040608#32 := by decide

-- rd = 0 discards the result; the pc goes on (10_state.md R12)
theorem test_and_to_register_zero :
    regAfter (exec (.and 0#5 1#5 2#5) (stateWith Config.default 0x10#32 3#32 3#32 [])) 0#5 = some 0#32 ∧
    pcAfter (exec (.and 0#5 1#5 2#5) (stateWith Config.default 0x10#32 3#32 3#32 [])) = some 0x14#32 := by decide

-- row 11 of 2.2
theorem test_or_bits :
    regAfter (exec (.or 3#5 1#5 2#5) (stateWith Config.default 0#32 0x12345678#32 0x0F0F0F0F#32 [])) 3#5 =
      some 0x1F3F5F7F#32 := by decide

-- pc + 4 wraps (10_state.md R16)
theorem test_or_pc_wraps :
    pcAfter (exec (.or 3#5 1#5 2#5) (stateWith Config.default 0xFFFFFFFC#32 0#32 0#32 [])) = some 0#32 := by decide

-- row 8 of 2.2: the difference overflows
theorem test_slt_signed :
    regAfter (exec (.slt 3#5 1#5 2#5) (stateWith Config.default 0#32 0x80000000#32 0x7FFFFFFF#32 [])) 3#5 =
      some 1#32 := by decide

-- row 9 of 2.2: the operands the other way round
theorem test_slt_signed_false :
    regAfter (exec (.slt 3#5 1#5 2#5) (stateWith Config.default 0#32 0x7FFFFFFF#32 0x80000000#32 [])) 3#5 =
      some 0#32 := by decide

-- first row of the table of `lw` and `sw` in 2.3
theorem test_lw_loads :
    regAfter (exec (.lw 2#5 1#5 8#16) (stateWith Config.default 0#32 0x100#32 0#32 [(0x108#32, 0xDEADBEEF#32)])) 2#5 =
      some 0xDEADBEEF#32 := by decide

-- base and destination the same register (2.3, third row)
theorem test_lw_base_is_destination :
    regAfter (exec (.lw 1#5 1#5 0#16) (stateWith Config.default 0#32 0x100#32 0#32 [(0x100#32, 0x200#32)])) 1#5 =
      some 0x200#32 := by decide

-- 2.3, second row
theorem test_sw_stores :
    wordAfter (exec (.sw 2#5 1#5 0xFFFC#16) (stateWith Config.default 0#32 0x100#32 0x11223344#32 [(0xFC#32, 0#32)]))
      0xFC#32 = some 0x11223344#32 := by decide

-- 2.7, third row of stores: misaligned
theorem test_sw_misaligned :
    faultOf (exec (.sw 2#5 1#5 2#16) (stateWith Config.default 0x20#32 0x100#32 1#32 [])) =
      some (.misalignedDataAddress 0x20#32 0x102#32) := by decide

-- 2.4: most negative offset
theorem test_beq_taken :
    pcAfter (exec (.beq 1#5 2#5 0x8000#16) (stateWith Config.default 0x00020000#32 9#32 9#32 [])) = some 4#32 := by decide

-- 2.4: equality is of all 32 bits
theorem test_beq_not_taken :
    pcAfter (exec (.beq 1#5 2#5 3#16) (stateWith Config.default 0x10#32 0x80000000#32 0#32 [])) = some 0x14#32 := by decide

-- 2.5: the upper bits come from pc + 4
theorem test_j_region :
    pcAfter (exec (.j 0#26) (stateWith Config.default 0x0FFFFFFC#32 0#32 0#32 [])) = some 0x10000000#32 := by decide

-- 2.5, last row
theorem test_j_field :
    pcAfter (exec (.j 0xABCDEF#26) (stateWith Config.default 0x12345678#32 0#32 0#32 [])) = some 0x12AF37BC#32 := by decide

/-- Bytes of a stored word: big-endian puts bits 31:24 first (20_memory.md R30). -/
theorem test_store_bytes :
    ((Memory.writeWord [] .big 0x40#32 0xAABBCCDD#32) = [(0x40, 0xAA#8), (0x41, 0xBB#8), (0x42, 0xCC#8), (0x43, 0xDD#8)]) ∧
    (Memory.writeWord [] .little 0x40#32 0xAABBCCDD#32) =
      [(0x40, 0xDD#8), (0x41, 0xCC#8), (0x42, 0xBB#8), (0x43, 0xAA#8)] := by decide

/-- The step on a word of program loaded at the pc, and on an illegal one. -/
theorem test_step_loaded :
    pcAfter (step (loaded 0x00221820)) = some 4#32 ∧
    faultOf (step (loaded 0)) = some (.illegalInstruction 0#32 0#32) := by decide

/-- A run with no program: the fault is recorded at the first cycle, and the state does not change after it. -/
theorem test_fault_recorded :
    State.reset.cycle.fault = some (.fetchFault 0#32) ∧ State.reset.cycle.cycle = State.reset.cycle := by decide

/-- ALU vectors of 2.6. -/
theorem test_alu :
    aluResult 0b0010#4 0xFFFFFFFF#32 1#32 = 0#32 ∧ aluResult 0b0110#4 5#32 7#32 = 0xFFFFFFFE#32 ∧
    aluResult 0b0111#4 0x80000000#32 1#32 = 1#32 ∧ aluResult 0b0001#4 0xF0F0F0F0#32 0x0F0F0F0F#32 = 0xFFFFFFFF#32 ∧
    aluZero 0#32 = true ∧ aluZero 0xFFFFFFFE#32 = false := by decide

/-- One cycle at signal level: `lw $2, 8($1)` with every don't-care at 1 (2.6, 2.3). -/
theorem test_datapath_lw :
    regAfter (datapathCycle (Control.wires ⟨.off, .on, .on, .on, .on, .off, .off, .off, .off, .off⟩
        ⟨true, true, true, true, true, true, true, true, true, true⟩) 0x8C220008#32
      (stateWith Config.default 0#32 0x100#32 0#32 [(0x108#32, 0xDEADBEEF#32)])) 2#5 = some 0xDEADBEEF#32 := by decide

/-! ## Witnesses: values that meet the hypotheses of each statement -/

/-- The step of a loaded `add` answers a next state. -/
theorem loaded_steps : ∃ t, step (loaded 0x00221820) = .next t := eq_next (by decide)

theorem loaded_inv : (loaded 0x00221820).Inv :=
  ⟨by decide, by decide, by decide, by decide, fun _ h => (List.not_mem_nil h).elim, fun _ => by decide⟩

theorem test_witness_EncodeOfDecode :
    decode 0x00000020#32 = .ok (.add 0#5 0#5 0#5) ∧ decode 0x0BFFFFFF#32 = .ok (.j 0x3FFFFFF#26) := by decide

/-- The highest word of each row, and a word that matches none, fetched. -/
theorem test_witness_DecodeByPatterns :
    (0x03FFF820#32 &&& 0xFC0007FF#32 = 0x00000020#32) ∧ (0x03FFF822#32 &&& 0xFC0007FF#32 = 0x00000022#32) ∧
    (0x03FFF824#32 &&& 0xFC0007FF#32 = 0x00000024#32) ∧ (0x03FFF825#32 &&& 0xFC0007FF#32 = 0x00000025#32) ∧
    (0x03FFF82A#32 &&& 0xFC0007FF#32 = 0x0000002A#32) ∧ (0x8FFFFFFF#32 &&& 0xFC000000#32 = 0x8C000000#32) ∧
    (0xAFFFFFFF#32 &&& 0xFC000000#32 = 0xAC000000#32) ∧ (0x13FFFFFF#32 &&& 0xFC000000#32 = 0x10000000#32) ∧
    (0x0BFFFFFF#32 &&& 0xFC000000#32 = 0x08000000#32) ∧
    (∀ r ∈ opcodeRows, 0x03FFF860#32 &&& r.mask ≠ r.pattern) ∧ (loaded 0x03FFF860).cycleWord = .next 0x03FFF860#32 :=
  ⟨by decide, by decide, by decide, by decide, by decide, by decide, by decide, by decide, by decide, by decide,
    eq_fetched (by decide)⟩

/-- A fetched word of each of the three illegal kinds, and a legal one. -/
theorem test_witness_IllegalInstructionExactly :
    (loaded 0x0C000000).cycleWord = .next 0x0C000000#32 ∧ (loaded 0x00221821).cycleWord = .next 0x00221821#32 ∧
    (loaded 0x00221860).cycleWord = .next 0x00221860#32 ∧ (loaded 0x00221820).cycleWord = .next 0x00221820#32 :=
  ⟨eq_fetched (by decide), eq_fetched (by decide), eq_fetched (by decide), eq_fetched (by decide)⟩

/-- The farthest labels of `beq` at 0x00040000 and the ends of the region of a `j`. -/
theorem test_witness_LabelsReachTheirAddress :
    Asm.wellFormed 0x40000#32 (.beq 31 0 (.label 0x60000#32)) = true ∧
    Asm.wellFormed 0x40000#32 (.beq 31 0 (.label 0x20004#32)) = true ∧
    Asm.wellFormed 0x40000#32 (.j (.label 0#32)) = true ∧
    Asm.wellFormed 0x40000#32 (.j (.label 0x0FFFFFFC#32)) = true := by decide

theorem test_witness_StepRunsDecodedInstruction :
    let s := loaded 0x8C220008
    s.cfg.admitted = true ∧ s.fault = none ∧ s.pc ≠ s.cfg.endPc ∧ s.pc.toNat % 4 = 0 ∧
    s.imem.read s.pc.toNat = some 0x8C#8 ∧ s.imem.read (s.pc.toNat + 1) = some 0x22#8 ∧
    s.imem.read (s.pc.toNat + 2) = some 0x00#8 ∧ s.imem.read (s.pc.toNat + 3) = some 0x08#8 ∧
    decodeBytes s.cfg.byteOrder [0x8C#8, 0x22#8, 0x00#8, 0x08#8] = .ok (.lw 2#5 1#5 8#16, []) := by decide

/-- A pc that is `END_PC`, at the top of the address space. -/
theorem test_witness_LoadedWordIsRun :
    let s := stateWith Config.default 0xFFFFFFFC#32 0#32 0#32 []
    s.cfg.admitted = true ∧ s.pc.toNat % 4 = 0 ∧ s.pc = s.cfg.endPc := by decide

/-- Outside `IMEM_DOMAIN`, and inside it. -/
theorem test_witness_FetchFaultExactly :
    State.reset.cfg.admitted = true ∧ State.reset.fault = none ∧ (loaded 0x00221820).cfg.admitted = true ∧
    (loaded 0x00221820).fault = none := by decide

theorem test_witness_NoStepAtEndPc :
    let s := stateWith Config.default 0xFFFFFFFC#32 0#32 0#32 []
    s.cfg.admitted = true ∧ s.fault = none ∧ s.pc = s.cfg.endPc := by decide

/-- A configuration of each refused kind; one without, whose region ends at 2^32. -/
theorem test_witness_MisalignedConfigurationRefused :
    ({ Config.default with resetPc := 2#32 } : Config).resetPc.toNat % 4 ≠ 0 ∧
    ({ Config.default with endPc := 1#32 } : Config).endPc.toNat % 4 ≠ 0 ∧
    (∃ r ∈ ({ Config.default with dmemDomain := [⟨0, 4⟩, ⟨3, 4⟩] } : Config).dmemDomain, r.base % 4 ≠ 0) ∧
    State.reset.cfg.resetPc.toNat % 4 = 0 ∧ State.reset.cfg.endPc.toNat % 4 = 0 ∧
    ∀ r ∈ State.reset.cfg.dmemDomain, r.base % 4 = 0 ∧ r.base + 4 * r.words ≤ 2 ^ 32 := by decide

/-- A first fault, and a fault recorded before. -/
theorem test_witness_FaultIsRecordedForever :
    (step State.reset = .fault (.fetchFault 0#32) ∧ State.reset.fault = none) ∧
    step State.reset.cycle = .fault (.fetchFault 0#32) ∧ State.reset.cycle.fault = some (.fetchFault 0#32) :=
  ⟨⟨eq_fault (by decide), by decide⟩, eq_fault (by decide), by decide⟩

theorem test_witness_StepKeepsInv : ∃ s t, State.Inv s ∧ step s = .next t :=
  ⟨loaded 0x00221820, loaded_steps.choose, loaded_inv, loaded_steps.choose_spec⟩

/-- An image at the first and the last word of the domain. -/
theorem test_witness_InvAtBoot :
    smallData.admitted = true ∧ ∀ aw ∈ [(0#32, 1#32), (0xFC#32, 2#32)], aw.1.toNat % 4 = 0 ∧
      ∃ r ∈ smallData.dmemDomain, r.base ≤ aw.1.toNat ∧ aw.1.toNat < r.base + 4 * r.words := by
  refine ⟨by decide, fun aw h => ?_⟩
  simp only [List.mem_cons, List.not_mem_nil, or_false] at h
  rcases h with rfl | rfl <;> exact ⟨by decide, ⟨0, 64⟩, List.mem_singleton.2 rfl, by decide, by decide⟩

theorem test_witness_HostImageReadsBack :
    let image : List (Word × Word) := [(4#32, 1#32), (0#32, 2#32), (0xFFFFFFFC#32, 3#32)]
    (image.map Prod.fst).Nodup ∧ (∀ aw ∈ image, aw.1.toNat % 4 = 0) ∧
    ∀ aw ∈ image, ∀ k : Fin 4, 8 ≠ aw.1.toNat + k.val := by
  refine ⟨by decide, fun aw h => ?_, fun aw h => ?_⟩ <;>
    simp only [List.mem_cons, List.not_mem_nil, or_false] at h <;> rcases h with rfl | rfl | rfl <;> decide

/-- Each policy, an ordinary and a hardwired register 0, and a listed and an unlisted word of the domain. -/
theorem test_witness_ResetLeaves :
    Config.default.zeroRegHardwired = true ∧ plainZero.zeroRegHardwired = false ∧
    (withPolicy .init).unwritten = .init ∧ (withPolicy .fault).unwritten = .fault ∧
    (withPolicy .draw).unwritten = .draw ∧
    let s := stateWith smallData 0#32 0#32 0#32 [(0#32, 7#32)]
    (0#32).toNat % 4 = 0 ∧ s.inDmemDomain 0#32 = true ∧ s.dmem.readWord .big 0#32 = some 7#32 ∧
    (0xFC#32).toNat % 4 = 0 ∧ s.inDmemDomain 0xFC#32 = true ∧ s.dmem.readWord .big 0xFC#32 = none := by decide

/-- Both settings; sources that can be read; a base whose word can be read, and one whose word faults. -/
theorem test_witness_RegisterZero :
    let s := stateWith smallData 0#32 0xFC#32 0x100#32 [(0xFC#32, 7#32)]
    s.cfg.zeroRegHardwired = true ∧ s.cfg.overflow = .wrap ∧ s.readReg 1#5 = .ok 0xFC#32 ∧
    s.readReg 2#5 = .ok 0x100#32 ∧ s.memRead (0xFC#32 + (0#16).signExtend 32) = .ok 7#32 ∧
    s.memRead (0x100#32 + (0#16).signExtend 32) = .error (.dataAccessFault 0#32 0x100#32) ∧
    (stateWith plainZero 0#32 0#32 0#32 []).cfg.zeroRegHardwired = false :=
  ⟨by decide, by decide, by decide, by decide, by decide, by decide, by decide⟩

/-- An unwritten register under each policy that has one, still unwritten after a cycle. -/
theorem test_witness_UnwrittenRegisterReads :
    let s := stateWith (withPolicy .fault) 0#32 0#32 0#32 []
    let d := stateWith (withPolicy .draw) 0#32 0#32 0#32 []
    (s.isWritten 31#5 = false ∧ s.cfg.unwritten = .fault) ∧
    (d.isWritten 1#5 = false ∧ d.cfg.unwritten = .draw ∧ (State.cycles 1 d).isWritten 1#5 = false) :=
  ⟨⟨by decide, by decide⟩, by decide, by decide, by decide⟩

/-- Two states that agree on the sources of `add $3, $1, $2` and differ in `$4`; a register it does not write. -/
theorem test_witness_RegisterReadAndWriteSets :
    let s := stateWith Config.default 0#32 5#32 7#32 []
    let i := Instr.add 3#5 1#5 2#5
    (AgreeOn (Instr.reads i) s (s.writeReg 4#5 1#32) ∧ s ≠ s.writeReg 4#5 1#32) ∧
    (∃ t, exec i s = .next t) ∧ Instr.writes i = some 3#5 ∧ Instr.writes i ≠ some 4#5 :=
  ⟨⟨⟨rfl, by decide⟩, by decide⟩, eq_next (by decide), by decide, by decide⟩

/-- An unwritten first source, an unwritten second source, and operands at each boundary of signed overflow. -/
theorem test_witness_AddWritesSum :
    (0x03FFF820#32 &&& 0xFC0007FF#32 = 0x00000020#32) ∧
    let u := stateWith (withPolicy .fault) 0#32 0#32 0#32 []
    let s := stateWith trapping 0#32 0x7FFFFFFF#32 1#32 []
    State.Unreadable u 1#5 ∧ State.Unreadable u 2#5 ∧ u.readReg 0#5 = .ok 0#32 ∧
    s.readReg 0#5 = .ok 0#32 ∧ s.readReg 1#5 = .ok 0x7FFFFFFF#32 ∧ s.readReg 2#5 = .ok 1#32 ∧
    s.cfg.overflow = .fault ∧ SumUnrepresentable 0x7FFFFFFF#32 1#32 ∧ ¬ SumUnrepresentable 0x7FFFFFFF#32 0#32 := by
  unfold State.Unreadable SumUnrepresentable; decide

theorem test_witness_SubWritesDifference :
    (0x03FFF822#32 &&& 0xFC0007FF#32 = 0x00000022#32) ∧
    let u := stateWith (withPolicy .fault) 0#32 0#32 0#32 []
    let s := stateWith trapping 0#32 0x80000000#32 1#32 []
    State.Unreadable u 1#5 ∧ State.Unreadable u 2#5 ∧ u.readReg 0#5 = .ok 0#32 ∧
    s.readReg 0#5 = .ok 0#32 ∧ s.readReg 1#5 = .ok 0x80000000#32 ∧ s.readReg 2#5 = .ok 1#32 ∧
    s.cfg.overflow = .fault ∧ DifferenceUnrepresentable 0x80000000#32 1#32 ∧
    ¬ DifferenceUnrepresentable 0x80000000#32 0#32 := by
  unfold State.Unreadable DifferenceUnrepresentable; decide

/-- One state for `and`, `or`, `slt`: an unwritten register, and written ones. -/
theorem test_witness_AndWritesBits :
    (0x03FFF824#32 &&& 0xFC0007FF#32 = 0x00000024#32) ∧
    let u := (stateWith (withPolicy .fault) 0#32 0#32 0#32 []).writeReg 1#5 0xFFFFFFFF#32
    State.Unreadable u 2#5 ∧ u.readReg 1#5 = .ok 0xFFFFFFFF#32 ∧ u.readReg 0#5 = .ok 0#32 := by
  unfold State.Unreadable; decide

theorem test_witness_OrWritesBits :
    (0x03FFF825#32 &&& 0xFC0007FF#32 = 0x00000025#32) ∧
    let u := (stateWith (withPolicy .fault) 0#32 0#32 0#32 []).writeReg 1#5 0xFFFFFFFF#32
    State.Unreadable u 2#5 ∧ u.readReg 1#5 = .ok 0xFFFFFFFF#32 ∧ u.readReg 0#5 = .ok 0#32 := by
  unfold State.Unreadable; decide

/-- Less by one, and equal, at the ends of the signed range. -/
theorem test_witness_SltWritesComparison :
    (0x03FFF82A#32 &&& 0xFC0007FF#32 = 0x0000002A#32) ∧
    State.Unreadable (stateWith (withPolicy .fault) 0#32 0#32 0#32 []) 2#5 ∧
    let s := stateWith Config.default 0#32 0x80000000#32 0x7FFFFFFF#32 []
    s.readReg 1#5 = .ok 0x80000000#32 ∧ s.readReg 2#5 = .ok 0x7FFFFFFF#32 ∧
    (0x80000000#32).toInt < (0x80000001#32).toInt ∧ (0x7FFFFFFF#32).toInt ≤ (0x7FFFFFFF#32).toInt := by
  unfold State.Unreadable; decide

theorem test_witness_OverflowFaultOnlyAddSub :
    exec (.add 3#5 1#5 2#5) (stateWith trapping 8#32 0x7FFFFFFF#32 1#32 []) = .fault (.arithmeticOverflow 8#32) ∧
    exec (.sub 3#5 1#5 2#5) (stateWith trapping 8#32 0x80000000#32 1#32 []) = .fault (.arithmeticOverflow 8#32) :=
  ⟨eq_fault (by decide), eq_fault (by decide)⟩

/-- Each of the five, with an ordinary destination and with a hardwired register 0. -/
theorem test_witness_RFormatFrame :
    let s := stateWith Config.default 0#32 5#32 7#32 []
    (∀ i ∈ [Instr.add 3#5 1#5 2#5, .sub 3#5 1#5 2#5, .and 3#5 1#5 2#5, .or 3#5 1#5 2#5, .slt 3#5 1#5 2#5],
      ∃ t, exec i s = .next t) ∧ (∃ t, exec (.add 0#5 1#5 2#5) s = .next t) ∧ (4#5 ≠ 3#5) ∧
    s.isHardwired 0#5 = true := by
  refine ⟨fun i h => eq_next ?_, eq_next (by decide), by decide, by decide⟩
  revert i
  decide

/-- Four bytes at the top of the address space, in either memory. -/
theorem test_witness_WordByteOrder :
    let m : Memory := Memory.writeWord [] .big 0xFFFFFFFC#32 0xAABBCCDD#32
    (0xFFFFFFFC#32).toNat % 4 = 0 ∧ m.read (0xFFFFFFFC#32).toNat = some 0xAA#8 ∧
    m.read ((0xFFFFFFFC#32).toNat + 1) = some 0xBB#8 ∧ m.read ((0xFFFFFFFC#32).toNat + 2) = some 0xCC#8 ∧
    m.read ((0xFFFFFFFC#32).toNat + 3) = some 0xDD#8 ∧
    (stateWith Config.default 0#32 0#32 0#32 [(0xFFFFFFFC#32, 0xAABBCCDD#32)]).dmem = m ∧
    (stateWith Config.default 0#32 0#32 0#32 []).inDmemDomain 0xFFFFFFFC#32 = true ∧
    (({ State.reset with imem := m } : State).imem = m) := by decide

/-- Misaligned; the first address outside the domain; the last one inside, listed and unlisted, under each policy. -/
theorem test_witness_MemReadChecksInOrder :
    let s := stateWith smallData 0#32 0#32 0#32 [(0xFC#32, 7#32)]
    (0xFE#32).toNat % 4 ≠ 0 ∧ (0x100#32).toNat % 4 = 0 ∧ s.inDmemDomain 0x100#32 = false ∧
    (0xFC#32).toNat % 4 = 0 ∧ s.inDmemDomain 0xFC#32 = true ∧ s.dmem.readWord s.cfg.byteOrder 0xFC#32 = some 7#32 ∧
    s.dmem.readWord s.cfg.byteOrder 0xF8#32 = none ∧
    ({ smallData with unwritten := .draw } : Config).unwritten = .draw ∧
    ({ smallData with unwritten := .fault } : Config).unwritten = .fault := by decide

theorem test_witness_MemWriteReplacesOneWord :
    let s := stateWith smallData 0#32 0#32 0#32 []
    (0xFD#32).toNat % 4 ≠ 0 ∧ ((0x100#32).toNat % 4 = 0 ∧ s.inDmemDomain 0x100#32 = false) ∧
    ((0xFC#32).toNat % 4 = 0 ∧ s.inDmemDomain 0xFC#32 = true) ∧ ∀ k : Fin 4, 0x100 ≠ (0xFC#32).toNat + k.val := by decide

/-- `lw $2, imm($1)` with x[1] = 0xFC: each outcome, at the end of the domain. -/
theorem test_witness_LwLoadsWord :
    (0x8FFFFFFF#32 &&& 0xFC000000#32 = 0x8C000000#32) ∧
    State.Unreadable (stateWith (withPolicy .fault) 0#32 0#32 0#32 []) 1#5 ∧
    let s := stateWith smallData 0#32 0xFC#32 0#32 [(0xFC#32, 7#32)]
    s.readReg 1#5 = .ok 0xFC#32 ∧ (0xFC#32 + (1#16).signExtend 32).toNat % 4 ≠ 0 ∧
    (0xFC#32 + (4#16).signExtend 32).toNat % 4 = 0 ∧ s.inDmemDomain (0xFC#32 + (4#16).signExtend 32) = false ∧
    (0xFC#32 + (0#16).signExtend 32).toNat % 4 = 0 ∧ s.inDmemDomain (0xFC#32 + (0#16).signExtend 32) = true ∧
    s.dmem.readWord s.cfg.byteOrder (0xFC#32 + (0#16).signExtend 32) = some 7#32 ∧
    s.inDmemDomain (0xFC#32 + (0xFFFC#16).signExtend 32) = true ∧
    s.dmem.readWord s.cfg.byteOrder (0xFC#32 + (0xFFFC#16).signExtend 32) = none ∧
    ({ smallData with unwritten := .draw } : Config).unwritten = .draw ∧
    ({ smallData with unwritten := .fault } : Config).unwritten = .fault := by unfold State.Unreadable; decide

theorem test_witness_SwStoresWord :
    (0xAFFFFFFF#32 &&& 0xFC000000#32 = 0xAC000000#32) ∧
    State.Unreadable (stateWith (withPolicy .fault) 0#32 0#32 0#32 []) 1#5 ∧
    (stateWith (withPolicy .fault) 0#32 0#32 0#32 []).readReg 0#5 = .ok 0#32 ∧
    let s := stateWith smallData 0#32 0xFC#32 5#32 []
    s.readReg 1#5 = .ok 0xFC#32 ∧ s.readReg 2#5 = .ok 5#32 ∧ (0xFC#32 + (3#16).signExtend 32).toNat % 4 ≠ 0 ∧
    ((0xFC#32 + (4#16).signExtend 32).toNat % 4 = 0 ∧ s.inDmemDomain (0xFC#32 + (4#16).signExtend 32) = false) ∧
    ((0xFC#32 + (0#16).signExtend 32).toNat % 4 = 0 ∧ s.inDmemDomain (0xFC#32 + (0#16).signExtend 32) = true) := by
  unfold State.Unreadable; decide

theorem test_witness_LoadStoreFrame :
    let s := stateWith Config.default 0#32 0xFC#32 5#32 [(0xFC#32, 7#32)]
    (∃ t, exec (.lw 2#5 1#5 0#16) s = .next t) ∧ (∃ t, exec (.lw 0#5 1#5 0#16) s = .next t) ∧
    (∃ t, exec (.sw 2#5 1#5 0#16) s = .next t) ∧ s.readReg 1#5 = .ok 0xFC#32 ∧
    ∀ k : Fin 4, 0x100 ≠ byteAddr (effectiveAddress 0xFC#32 0#16) k :=
  ⟨eq_next (by decide), eq_next (by decide), eq_next (by decide), by decide, by decide⟩

/-- x[1] = 0x40, x[2] = 5, and at address 4 the program word of `sw $2, 4($1)`. -/
def storing : State :=
  { stateWith Config.default 0#32 0x40#32 5#32 [] with imem := Memory.ofWords .big [(4#32, 0xAC220004#32)] }

/-- A store, and a cycle after it that stores to another word: `sw $2, 4($1)` after `sw $2, 0($1)`. -/
theorem test_witness_LoadSeesLatestStore :
    storing.readReg 1#5 = .ok 0x40#32 ∧ storing.readReg 2#5 = .ok 5#32 ∧
    ∃ t, exec (.sw 2#5 1#5 0#16) storing = .next t ∧
      ∀ k, k < 1 → ∀ w rt' rs' imm' base', (State.cycles k t).cycleWord = .next w →
        decode w = .ok (.sw rt' rs' imm') → (State.cycles k t).readReg rs' = .ok base' →
        effectiveAddress base' imm' ≠ effectiveAddress 0x40#32 0#16 := by
  refine ⟨by decide, by decide, _, eq_stateAfter (s := storing) (by decide), ?_⟩
  intro k hk w rt' rs' imm' base' hw hd hb
  obtain rfl : k = 0 := by omega
  have e : w = 0xAC220004#32 := by
    have h : fetched (State.cycleWord (stateAfter storing (exec (.sw 2#5 1#5 0#16) storing))) =
      some 0xAC220004#32 := by decide
    exact Option.some.inj ((congrArg fetched hw).symm.trans h)
  subst e
  have d : (Except.ok (.sw 2#5 1#5 4#16) : Except DecodeError Instr) = .ok (.sw rt' rs' imm') :=
    (show decode 0xAC220004#32 = _ by decide).symm.trans hd
  cases d
  have b : (Except.ok 0x40#32 : Except Fault Word) = .ok base' :=
    (show State.readReg (stateAfter storing (exec (.sw 2#5 1#5 0#16) storing)) 1#5 = _ by decide).symm.trans hb
  cases b
  decide

theorem test_witness_DataAccessFaultExactly : State.reset.cfg.dmemDomain = [⟨0, 2 ^ 30⟩] := by decide

/-- A fault of an unwritten register, and a register that an instruction reads and that cannot be read. -/
theorem test_witness_UnspecifiedValueFaults :
    let s := stateWith (withPolicy .fault) 0#32 0#32 0#32 []
    exec (.add 1#5 2#5 0#5) s = .fault (.unwrittenRegister 2#5) ∧ State.Unreadable s 31#5 ∧
    31#5 ∈ Instr.reads (.sw 31#5 0#5 0#16) :=
  ⟨eq_fault (by decide), ⟨by decide, by decide⟩, by decide⟩

/-- The rows of 2.7, one for each clause. -/
theorem test_witness_FaultPriority :
    let u := stateWith (withPolicy .fault) 0#32 0#32 0#32 []
    let u1 := u.writeReg 1#5 0x100#32
    (State.reset.cfg.admitted = true ∧ State.reset.fault = none ∧ State.reset.pc ≠ State.reset.cfg.endPc ∧
      State.reset.inImemDomain State.reset.pc = false) ∧
    ((loaded 0x00221860).cycleWord = .next 0x00221860#32 ∧ decode 0x00221860#32 = .error (.shamtNotZero 1#5)) ∧
    State.Unreadable u 1#5 ∧ (¬ State.Unreadable u1 1#5 ∧ State.Unreadable u1 2#5) ∧
    (¬ State.Unreadable u1 1#5 ∧ ¬ State.Unreadable u1 0#5) ∧
    exec (.add 3#5 1#5 2#5) (stateWith trapping 8#32 0x7FFFFFFF#32 1#32 []) = .fault (.arithmeticOverflow 8#32) ∧
    (u1.readReg 1#5 = .ok 0x100#32 ∧
      exec (.lw 2#5 1#5 2#16) u1 = .fault (.misalignedDataAddress 0#32 0x102#32) ∧
      exec (.lw 2#5 1#5 0#16) u1 = .fault (.uninitialisedMemory 0#32 0x100#32)) ∧
    let d := stateWith smallData 0#32 0x100#32 1#32 []
    d.readReg 1#5 = .ok 0x100#32 ∧ d.readReg 2#5 = .ok 1#32 ∧
    exec (.lw 2#5 1#5 0#16) d = .fault (.dataAccessFault 0#32 0x100#32) ∧
    exec (.sw 2#5 1#5 0#16) d = .fault (.dataAccessFault 0#32 0x100#32) := by
  refine ⟨by decide, ⟨eq_fetched (by decide), by decide⟩, ⟨by decide, by decide⟩, ?_, ?_, eq_fault (by decide),
    ⟨by decide, eq_fault (by decide), eq_fault (by decide)⟩, by decide, by decide, eq_fault (by decide),
    eq_fault (by decide)⟩ <;> unfold State.Unreadable <;> decide

/-- `sw $0, 0($0)` run by a step changes the data memory. -/
theorem test_witness_OnlyStoreChangesDataMemory :
    ∃ t, step (loaded 0xAC000000) = .next t ∧ t.dmem ≠ (loaded 0xAC000000).dmem := ⟨_, rfl, by decide⟩

/-- Equal and different registers, an unwritten one of each place. -/
theorem test_witness_BeqBranchesOnEqual :
    (0x13FFFFFF#32 &&& 0xFC000000#32 = 0x10000000#32) ∧
    let u := stateWith (withPolicy .fault) 0#32 0#32 0#32 []
    let s := stateWith Config.default 0#32 0x80000000#32 0#32 []
    State.Unreadable u 1#5 ∧ u.readReg 0#5 = .ok 0#32 ∧ State.Unreadable u 2#5 ∧
    s.readReg 1#5 = .ok 0x80000000#32 ∧ s.readReg 2#5 = .ok 0#32 ∧ s.readReg 3#5 = .ok 0#32 := by
  unfold State.Unreadable; decide

theorem test_witness_JumpGoesToField : 0x0BFFFFFF#32 &&& 0xFC000000#32 = 0x08000000#32 := by decide

/-- The first and the last address of the region a `j` at 0x0FFFFFFC reaches. -/
theorem test_witness_JumpReach :
    let pc := 0x0FFFFFFC#32
    ((0x10000000#32).toNat % 4 = 0 ∧ (0x10000000#32).toNat / 2 ^ 28 = (pc + 4#32).toNat / 2 ^ 28) ∧
    (0x1FFFFFFC#32).toNat % 4 = 0 ∧ (0x1FFFFFFC#32).toNat / 2 ^ 28 = (pc + 4#32).toNat / 2 ^ 28 := by decide

theorem test_witness_BranchJumpFrame :
    (∃ t, exec (.beq 1#5 2#5 3#16) (stateWith Config.default 0x10#32 9#32 9#32 []) = .next t) ∧
    ∃ t, exec (.j 5#26) State.reset = .next t := ⟨eq_next (by decide), eq_next (by decide)⟩

/-- A `beq` taken, one not taken, a `j`, and one of the others. -/
theorem test_witness_NextPcOfEveryInstruction :
    (∃ t, exec (.beq 1#5 2#5 3#16) (stateWith Config.default 0x10#32 9#32 9#32 []) = .next t) ∧
    (∃ t, exec (.beq 1#5 2#5 3#16) (stateWith Config.default 0x10#32 9#32 8#32 []) = .next t) ∧
    (∃ t, exec (.j 5#26) State.reset = .next t) ∧ ∃ t, exec (.lw 1#5 0#5 0#16) (stateWith Config.default 0#32 0#32 0#32
      [(0#32, 1#32)]) = .next t :=
  ⟨eq_next (by decide), eq_next (by decide), eq_next (by decide), eq_next (by decide)⟩

/-- `beq $0, $0, -1` (0x1000FFFF), and `j 0` (0x08000000) at address 0. -/
theorem test_witness_JumpToItselfNeverEnds :
    ((loaded 0x1000FFFF).cycleWord = .next 0x1000FFFF#32 ∧ decode 0x1000FFFF#32 = .ok (.beq 0#5 0#5 0xFFFF#16) ∧
      (loaded 0x1000FFFF).readReg 0#5 = .ok 0#32) ∧
    (loaded 0x08000000).cycleWord = .next 0x08000000#32 ∧ decode 0x08000000#32 = .ok (.j 0#26) ∧
    jumpTarget (loaded 0x08000000).pc 0#26 = (loaded 0x08000000).pc :=
  ⟨⟨eq_fetched (by decide), by decide, by decide⟩, eq_fetched (by decide), by decide, by decide⟩

theorem test_witness_DatapathAgreesWithInstructions : State.reset.cfg.overflow = .wrap := by decide

/-- Each row of the table applies to some inputs other than ALUOp = 11. -/
theorem test_witness_AluControlEquations :
    ∀ r ∈ aluControlTable, ∃ op1 op0 : Bool, ∃ funct ∈ [0b100000#6, 0b100010#6, 0b100100#6, 0b100101#6, 0b101010#6],
      ¬ (op1 = true ∧ op0 = true) ∧ r.applies op1 op0 funct = true := by decide

theorem test_witness_MainControlTable :
    0b001000#6 ∉ [0b000000#6, 0b100011#6, 0b101011#6, 0b000100#6, 0b000010#6] := by decide

/-- Less, and not less, at the ends of the signed range. -/
theorem test_witness_AluActions :
    (0x80000000#32).toInt < (0x7FFFFFFF#32).toInt ∧ (0x80000000#32).toInt ≤ (0x80000000#32).toInt := by decide

theorem test_witness_OrdinaryDataCompletes :
    State.reset.cfg.unwritten ≠ .fault ∧ State.reset.cfg.overflow = .wrap ∧
    ∀ a : Word, a.toNat % 4 = 0 → State.reset.inDmemDomain a = true := by
  refine ⟨by decide, by decide, fun a h => ?_⟩
  have := a.isLt
  simp only [State.inDmemDomain, State.reset, State.boot, Config.default, regionHolds, List.any_cons, List.any_nil,
    Bool.or_false, Bool.and_eq_true, decide_eq_true_eq]
  omega

theorem test_witness_CriticalPathTimes : totalTime (.sw 0#5 0#5 0#16) = some 700 := by decide

/-- A run under `draw`, and the run from reset, each with a step that faults. -/
theorem test_witness_UnwrittenValueNeverStopsRun :
    let d := stateWith (withPolicy .draw) 0#32 0#32 0#32 []
    (d.cfg.unwritten ≠ .fault ∧ d.fault = none ∧ step (State.cycles 1 d) = .fault (.fetchFault 0#32)) ∧
    step (State.cycles 1 { State.reset with imem := [], dmem := [] }) = .fault (.fetchFault 0#32) :=
  ⟨⟨by decide, by decide, eq_fault (by decide)⟩, eq_fault (by decide)⟩

end Sys2Proof.Tests
end

section
/-! PROOFS. What a cycle can do and the induction over cycles, and O20: a written register reads as written and stays
written. -/

namespace Sys2Proof.Machine

/-! ## A cycle and a run of cycles -/

/-- What a cycle can do: take the step's next state, record its fault, or leave the state where there is no step
(60_exceptions.md R131, R140). -/
theorem State.cycle_cases (s : State) :
    step s = .next s.cycle ∨ (∃ f, step s = .fault f ∧ s.cycle = s.recordFault f) ∨
      ∃ r, step s = .refused r ∧ s.cycle = s := by
  unfold State.cycle
  cases step s with
  | next t => exact .inl rfl
  | fault f => exact .inr (.inl ⟨f, rfl, rfl⟩)
  | refused r => exact .inr (.inr ⟨r, rfl, rfl⟩)

/-- What every cycle keeps holds after any number of cycles. -/
theorem State.cycles_induction {P : State → Prop} (keep : ∀ s, P s → P s.cycle) (n : Nat) {s : State} (h : P s) :
    P (State.cycles n s) := by
  induction n generalizing s with
  | zero => exact h
  | succ n ih => exact ih (keep s h)

/-! ## Written registers stay written -/

@[simp] theorem State.isWritten_recordFault (s : State) (f : Fault) (k : RegNum) :
    (s.recordFault f).isWritten k = s.isWritten k := by
  simp [State.isWritten, State.isHardwired]

/-- The register just written counts as written, a hardwired one as it always does (10_state.md R13). -/
theorem State.isWritten_writeReg_same (s : State) (i : RegNum) (v : Word) :
    (s.writeReg i v).isWritten i = true := by
  rw [State.isWritten_writeReg]
  cases hi : s.isHardwired i with
  | true => simp [State.isWritten, hi]
  | false => simp

theorem State.isWritten_finishReg_of_isWritten {s : State} {k : RegNum} (h : s.isWritten k = true) (i : RegNum)
    (v : Word) : (s.finishReg i v).isWritten k = true := by
  simp [State.finishReg, State.isWritten_writeReg, h]

/-- No instruction clears a written mark. -/
theorem exec_keeps_isWritten {i : Instr} {s t : State} {k : RegNum} (h : exec i s = .next t)
    (hw : s.isWritten k = true) : t.isWritten k = true := by
  rcases exec_eq_next h with ⟨r, v, rfl⟩ | ⟨_, _, _, _, _, -, -, -, -, -, rfl⟩ | ⟨_, rfl⟩ | rfl | ⟨_, -, rfl⟩
  · exact State.isWritten_finishReg_of_isWritten hw r v
  · exact hw
  · exact hw
  · exact hw
  · exact hw

/-- A cycle clears no written mark: the executed instruction clears none, and a fault leaves the registers alone. -/
theorem State.cycle_keeps_isWritten {k : RegNum} (s : State) (hw : s.isWritten k = true) :
    s.cycle.isWritten k = true := by
  rcases s.cycle_cases with h | ⟨f, -, h⟩ | ⟨r, -, h⟩
  · obtain ⟨w, i, -, -, hx⟩ := step_eq_next h
    exact exec_keeps_isWritten hx hw
  · rw [h, State.isWritten_recordFault, hw]
  · rw [h, hw]

/-- Settles O20: the reads are the register file's write rule, and the mark of the write survives by induction on the
cycles. -/
theorem writtenRegisterReads : Obligations.WrittenRegisterReads := by
  intro s i v
  have hw := s.isWritten_writeReg_same i v
  exact ⟨fun k => s.readReg_writeReg i k v, hw, fun n => State.cycles_induction State.cycle_keeps_isWritten n hw⟩

end Sys2Proof.Machine
end

section
/-! PROOFS. What an instruction keeps and what it writes, and O13, O42, O44: the invariant, the data memory and the
parameters along a step and a run. -/

namespace Sys2Proof.Machine

/-! ## What an instruction keeps -/

/-- No instruction touches the parameters, the instruction memory, the fault record or the draw (10_state.md R17,
R23). -/
theorem exec_sameRest {i : Instr} {s t : State} (h : exec i s = .next t) : SameRest s t := by
  rcases exec_eq_next h with ⟨r, v, rfl⟩ | ⟨_, _, _, _, _, -, -, -, -, -, rfl⟩ | ⟨_, rfl⟩ | rfl | ⟨_, -, rfl⟩
  · simp [SameRest]
  all_goals exact ⟨rfl, rfl, rfl, rfl⟩

/-- What an instruction does to the data memory: nothing, or a `sw` replaces one aligned word of the domain
(10_state.md R18). -/
theorem exec_dmem_cases {i : Instr} {s t : State} (h : exec i s = .next t) :
    t.dmem = s.dmem ∨ ∃ rt rs imm a v, i = .sw rt rs imm ∧ isAligned a = true ∧ s.inDmemDomain a = true ∧
      t.dmem = s.dmem.writeWord s.cfg.byteOrder a v := by
  rcases exec_eq_next h with
    ⟨r, v, rfl⟩ | ⟨rt, rs, imm, base, v, hi, -, -, ha, hd, rfl⟩ | ⟨_, rfl⟩ | rfl | ⟨_, -, rfl⟩
  · exact .inl (s.finishReg_dmem r v)
  · exact .inr ⟨rt, rs, imm, _, v, hi, ha, hd, rfl⟩
  all_goals exact .inl rfl

/-- Each of the three next pcs is a multiple of 4 (10_state.md R15, R16). -/
theorem exec_keeps_pc_aligned {i : Instr} {s t : State} (h : exec i s = .next t) (hp : isAligned s.pc = true) :
    isAligned t.pc = true := by
  rcases exec_eq_next h with ⟨r, v, rfl⟩ | ⟨_, _, _, _, _, -, -, -, -, -, rfl⟩ | ⟨imm, rfl⟩ | rfl | ⟨imm26, -, rfl⟩
  · exact isAligned_pcPlus4 hp
  · exact isAligned_pcPlus4 hp
  · exact isAligned_branchTarget hp imm
  · exact isAligned_pcPlus4 hp
  · exact isAligned_jumpTarget s.pc imm26

/-! ## The invariant -/

section
variable {s t : State}

/-- `DmemWhole` speaks of the parameters and the data memory only. -/
theorem State.DmemWhole.congr (h : s.DmemWhole) (hc : t.cfg = s.cfg) (hd : t.dmem = s.dmem) : t.DmemWhole := by
  unfold State.DmemWhole State.inDmemDomain at *
  rwa [hc, hd]

/-- Storing a word at an aligned address of the domain leaves whole words: the stored word is listed, and every other
one is as it was. -/
theorem State.DmemWhole.writeWord (h : s.DmemWhole) {a v : Word} (ha : isAligned a = true)
    (hd : s.inDmemDomain a = true) (hc : t.cfg = s.cfg) (ht : t.dmem = s.dmem.writeWord s.cfg.byteOrder a v) :
    t.DmemWhole := by
  unfold State.DmemWhole State.inDmemDomain at *
  rw [hc, ht]
  have stored : ((s.dmem.writeWord s.cfg.byteOrder a v).readWord s.cfg.byteOrder a).isSome = true := by
    simp [Memory.readWord_writeWord_same]
  intro cell hcell
  rcases Memory.mem_writeWord hcell with hk | hold
  · exact ⟨a, ha, hd, hk, stored⟩
  · obtain ⟨b, hb, hdb, hk, hsome⟩ := h cell hold
    refine ⟨b, hb, hdb, hk, ?_⟩
    by_cases hba : b = a
    · rw [hba]; exact stored
    · rwa [Memory.readWord_writeWord_other _ _ _ v ha hb hba]

end

/-- Every instruction keeps the invariant. -/
theorem exec_keeps_inv {i : Instr} {s t : State} (hs : s.Inv) (h : exec i s = .next t) : t.Inv := by
  obtain ⟨hcfg, himem, -, -⟩ := exec_sameRest h
  have hdmem : t.dmem.wf ∧ t.DmemWhole := by
    rcases exec_dmem_cases h with hd | ⟨-, -, -, a, v, -, ha, hdom, hd⟩
    · exact ⟨hd ▸ hs.dmemWf, hs.dmemWhole.congr hcfg hd⟩
    · exact ⟨hd ▸ Memory.wf_writeWord hs.dmemWf _ a v, hs.dmemWhole.writeWord ha hdom hcfg hd⟩
  exact
    { admitted  := hcfg ▸ hs.admitted
      pcAligned := exec_keeps_pc_aligned h hs.pcAligned
      imemWf    := himem ▸ hs.imemWf
      dmemWf    := hdmem.1
      dmemWhole := hdmem.2
      initMarks := fun hu k => exec_keeps_isWritten h (hs.initMarks (hcfg ▸ hu) k) }

/-- Settles O13: a step that answers a next state executed one instruction, and every instruction keeps each clause. -/
theorem stepKeepsInv : Obligations.StepKeepsInv := by
  intro s t hs h
  obtain ⟨w, i, -, -, hx⟩ := step_eq_next h
  exact exec_keeps_inv hs hx

/-! ## The data memory and the parameters along a step and a run -/

/-- Settles O42: the instruction a step executes is the one its word decodes to, and only `sw` writes data memory. -/
theorem onlyStoreChangesDataMemory : Obligations.OnlyStoreChangesDataMemory := by
  intro s t h hne
  obtain ⟨w, i, hw, hd, hx⟩ := step_eq_next h
  rcases exec_dmem_cases hx with heq | ⟨rt, rs, imm, -, -, rfl, -⟩
  · exact absurd heq hne
  · exact ⟨w, rt, rs, imm, hw, hd⟩

/-- A cycle changes neither the parameters nor the draw. -/
theorem State.cycle_parameters (s : State) : s.cycle.cfg = s.cfg ∧ s.cycle.draw = s.draw := by
  rcases s.cycle_cases with h | ⟨f, -, h⟩ | ⟨r, -, h⟩
  · obtain ⟨w, i, -, -, hx⟩ := step_eq_next h
    obtain ⟨hcfg, -, -, hdraw⟩ := exec_sameRest hx
    exact ⟨hcfg, hdraw⟩
  · simp [h]
  · simp [h]

/-- Settles O44, by induction on the cycles. -/
theorem parametersNeverChange : Obligations.ParametersNeverChange := by
  intro s n
  refine State.cycles_induction (P := fun t => t.cfg = s.cfg ∧ t.draw = s.draw) (fun t ⟨hcfg, hdraw⟩ => ?_) n ⟨rfl, rfl⟩
  obtain ⟨hc, hd⟩ := t.cycle_parameters
  exact ⟨hc.trans hcfg, hd.trans hdraw⟩

end Sys2Proof.Machine
end

section
/-! PROOFS. What reset leaves: O15, O14, O17 and O18. -/

namespace Sys2Proof.Machine

/-! ## Reads by mark and policy -/

section
variable {s : State} {i : RegNum}

theorem State.not_isHardwired_of_not_isWritten (h : s.isWritten i = false) : s.isHardwired i = false := by
  simp only [State.isWritten, Bool.or_eq_false_iff] at h
  exact h.1

/-- A written register that is not hardwired reads as its contents (10_state.md R13). -/
theorem State.readReg_eq_contents (hh : s.isHardwired i = false) (hw : s.isWritten i = true) :
    s.readReg i = .ok (RegFile.get s.regs i) := by
  simp [State.readReg, hh, hw]

/-- Under `draw` an unwritten register reads as the run's own value of it (10_state.md R13). -/
theorem State.readReg_eq_drawn (hw : s.isWritten i = false) (hu : s.cfg.unwritten = .draw) :
    s.readReg i = .ok (Config.drawnReg s.draw i) := by
  simp [State.readReg, State.not_isHardwired_of_not_isWritten hw, hw, hu]

/-- Under `fault` an unwritten register cannot be read (10_state.md R13). -/
theorem State.readReg_eq_unwritten (hw : s.isWritten i = false) (hu : s.cfg.unwritten = .fault) :
    s.readReg i = .error (.unwrittenRegister i) :=
  State.readReg_eq_error.2 ⟨hw, hu, rfl⟩

/-- Under a policy other than `fault` every aligned word of the domain can be read (20_memory.md R35). -/
theorem State.memRead_ok_of_policy {a : Word} (ha : isAligned a = true) (hd : s.inDmemDomain a = true)
    (hu : s.cfg.unwritten ≠ .fault) : ∃ v, s.memRead a = .ok v := by
  cases h : s.memRead a with
  | ok v => exact ⟨v, rfl⟩
  | error f =>
    rcases State.memRead_eq_error.1 h with hf | ⟨-, -, hpol, -⟩
    · rw [State.dataAddressFault_eq_none.2 ⟨ha, hd⟩] at hf; cases hf
    · exact absurd hpol hu

end

/-! ## The invariant at reset -/

/-- The word addresses of an admitted domain are the multiples of 4 inside its regions (20_memory.md R36). -/
theorem State.inDmemDomain_of_region {s : State} {a : Word} {r : Region} (hc : s.cfg.admitted = true)
    (hr : r ∈ s.cfg.dmemDomain) (ha : a.toNat % 4 = 0) (hlo : r.base ≤ a.toNat) (hhi : a.toNat < r.base + 4 * r.words) :
    s.inDmemDomain a = true := by
  simp only [Config.admitted, Bool.and_eq_true, List.all_eq_true] at hc
  have hbase : r.base % 4 = 0 := by
    have := hc.2 r hr
    simp only [Region.admitted, Bool.and_eq_true, decide_eq_true_eq] at this
    exact this.1
  refine List.any_eq_true.2 ⟨r, hr, ?_⟩
  simp only [regionHolds, Bool.and_eq_true, decide_eq_true_eq]
  omega

/-- A data image of words at aligned addresses of the domain leaves whole words, by induction on its words. -/
theorem State.DmemWhole.ofWords (s : State) (image : List (Word × Word))
    (h : ∀ aw ∈ image, isAligned aw.1 = true ∧ s.inDmemDomain aw.1 = true) :
    State.DmemWhole { s with dmem := Memory.ofWords s.cfg.byteOrder image } := by
  unfold Memory.ofWords
  suffices ∀ m : Memory, State.DmemWhole { s with dmem := m } → State.DmemWhole
      { s with dmem := image.foldl (fun m aw => m.writeWord s.cfg.byteOrder aw.1 aw.2) m } from
    this [] fun _ hc => (List.not_mem_nil hc).elim
  induction image with
  | nil => exact fun _ hm => hm
  | cons aw image ih =>
    obtain ⟨⟨ha, hd⟩, himage⟩ := List.forall_mem_cons.1 h
    exact fun m hm => ih himage _ (hm.writeWord ha hd rfl rfl)

/-- Settles O15: the images are built by word writes, which keep the canonical form and whole words. -/
theorem invAtBoot : Obligations.InvAtBoot := by
  intro cfg program image regs n hcfg himage
  exact
    { admitted  := hcfg
      pcAligned := by
        simp only [Config.admitted, Bool.and_eq_true] at hcfg
        exact hcfg.1.1
      imemWf    := Memory.wf_ofWords _ _
      dmemWf    := Memory.wf_ofWords _ _
      dmemWhole := State.DmemWhole.ofWords (State.boot cfg _ [] regs n) image fun aw haw => by
        obtain ⟨ha, r, hr, hlo, hhi⟩ := himage aw haw
        exact ⟨isAligned_iff.2 ha, State.inDmemDomain_of_region hcfg hr ha hlo hhi⟩
      initMarks := fun hu i => by
        rw [State.boot_cfg] at hu
        simp [State.boot_isWritten, hu] }

/-- Settles O14: `State.reset` is the boot state of the default configuration with empty images. -/
theorem invAtReset : Obligations.InvAtReset :=
  invAtBoot Config.default [] [] (Vector.replicate 32 0#32) 0 (by decide) fun _ h => (List.not_mem_nil h).elim

/-! ## What reset leaves -/

/-- Settles O17: the register marks at reset decide the register reads, the listed bytes decide the data reads. -/
theorem resetLeaves : Obligations.ResetLeaves := by
  intro cfg program initDmem initRegs n s
  refine ⟨rfl, rfl, rfl, rfl, rfl, fun hz => ?_, fun i hi => ?_, fun a ha hd => ?_⟩
  · exact State.readReg_of_hardwired (by simp [s, hz])
  · have hh : (cfg.zeroRegHardwired && decide (i = 0#5)) = false := by simpa using hi
    have hw : s.isWritten i = decide (cfg.unwritten = .init) := by
      simp only [s, State.boot_isWritten, hh, Bool.or_false]
    refine ⟨fun hu => ?_, fun hu => ?_, fun hu => ?_⟩
    · rw [State.readReg_eq_contents (s := s) hh (by simp [hw, hu]), State.boot_get _ _ _ _ _ _ hh]
    · exact State.readReg_eq_unwritten (by simp [hw, hu]) hu
    · exact State.readReg_eq_drawn (by simp [hw, hu]) hu
  · have ha : isAligned a = true := isAligned_iff.2 ha
    refine ⟨fun v hv => State.memRead_of_listed ha hd hv, fun hn => ⟨fun hu => ?_, fun hu => ?_⟩⟩
    · exact State.memRead_eq_error.2 (.inr ⟨State.dataAddressFault_eq_none.2 ⟨ha, hd⟩, hn, hu, rfl⟩)
    · exact State.memRead_ok_of_policy ha hd hu

/-- The data memory of `State.reset` has the full domain. -/
theorem reset_inDmemDomain {a : Word} (ha : a.toNat % 4 = 0) : State.reset.inDmemDomain a = true :=
  State.inDmemDomain_of_region (r := ⟨0, 1073741824⟩) (by decide) List.mem_cons_self ha (Nat.zero_le _)
    (by simpa using a.isLt)

/-- Settles O18: the registers by what reset leaves under the policy `init`, the data words by the full domain, and the
fetch by the empty program. -/
theorem resetChoices : Obligations.ResetChoices := by
  obtain ⟨-, -, -, -, -, hzero, hregs, -⟩ := resetLeaves Config.default [] [] (Vector.replicate 32 0#32) 0
  refine ⟨rfl, fun i => ?_, fun a ha => ?_, rfl⟩
  · by_cases hi : i = 0#5
    · rw [hi]; exact hzero rfl
    · refine ((hregs i fun h => hi h.2).1 rfl).trans ?_
      simp [RegFile.get]
  · exact State.memRead_ok_of_policy (isAligned_iff.2 ha) (reset_inDmemDomain ha) (by decide)

end Sys2Proof.Machine
end

section
/-! PROOFS. What an instruction reads and writes: O22, the registers of its row; O50, the next pc; O19, register 0. -/

namespace Sys2Proof.Machine

/-! ## The register an instruction writes -/

section
variable {s t : State}

theorem State.eq_finishReg_of_rFormat {rd rs rt : RegNum} {ov : Word → Word → Bool} {g : Word → Word → Word}
    (h : s.rFormat rd rs rt ov g = .next t) : ∃ v, t = s.finishReg rd v := by
  obtain ⟨a, b, -, -, -, ht⟩ := State.rFormat_eq_next.1 h
  exact ⟨g a b, ht⟩

/-- An instruction whose row names a destination ends by writing it and going on to `pc + 4` (10_state.md R14, R16). -/
theorem exec_eq_finishReg {i : Instr} {r : RegNum} (hw : Instr.writes i = some r) (h : exec i s = .next t) :
    ∃ v, t = s.finishReg r v := by
  cases i with
  | add rd rs rt => cases hw; exact State.eq_finishReg_of_rFormat h
  | sub rd rs rt => cases hw; exact State.eq_finishReg_of_rFormat h
  | and rd rs rt => cases hw; exact State.eq_finishReg_of_rFormat h
  | or rd rs rt => cases hw; exact State.eq_finishReg_of_rFormat h
  | slt rd rs rt => cases hw; exact State.eq_finishReg_of_rFormat h
  | lw rt rs imm => cases hw; obtain ⟨base, v, -, -, ht⟩ := execLw_eq_next.1 h; exact ⟨v, ht⟩
  | sw rt rs imm => cases hw
  | beq rs rt imm => cases hw
  | j imm26 => cases hw

/-- An instruction whose row names no destination leaves every register and mark (10_state.md R14). -/
theorem exec_keeps_all_registers {i : Instr} (hw : Instr.writes i = none) (h : exec i s = .next t) :
    t.cfg = s.cfg ∧ t.draw = s.draw ∧ t.regs = s.regs ∧ t.written = s.written := by
  obtain ⟨hcfg, -, -, hdraw⟩ := exec_sameRest h
  refine ⟨hcfg, hdraw, ?_⟩
  cases i with
  | add rd rs rt => cases hw
  | sub rd rs rt => cases hw
  | and rd rs rt => cases hw
  | or rd rs rt => cases hw
  | slt rd rs rt => cases hw
  | lw rt rs imm => cases hw
  | sw rt rs imm => obtain ⟨_, _, -, -, -, -, rfl⟩ := execSw_eq_next.1 h; exact ⟨rfl, rfl⟩
  | beq rs rt imm => obtain ⟨_, _, -, -, rfl⟩ := execBeq_eq_next.1 h; exact ⟨rfl, rfl⟩
  | j imm26 => cases h; exact ⟨rfl, rfl⟩

/-- Register `k` of `t` is that of `s`: what it reads as, its contents and its mark (10_state.md R14). -/
def KeepsRegister (s t : State) (k : RegNum) : Prop :=
  t.readReg k = s.readReg k ∧ RegFile.get t.regs k = RegFile.get s.regs k ∧ t.isWritten k = s.isWritten k

/-- The end of an instruction leaves every register but its destination. -/
theorem State.finishReg_keepsRegister (s : State) {r k : RegNum} (v : Word) (hk : k ≠ r) :
    KeepsRegister s (s.finishReg r v) k := by
  refine ⟨?_, ?_, ?_⟩
  · rw [State.readReg_finishReg, if_neg hk]
    cases hh : s.isHardwired k with
    | true => rw [State.readReg_of_hardwired hh]; rfl
    | false => rfl
  · rw [State.finishReg_regs]
    cases hr : s.isHardwired r with
    | true => rw [State.writeReg_of_hardwired hr]
    | false => rw [State.writeReg_regs hr, RegFile.get_put, if_neg hk]
  · simp [State.finishReg, State.isWritten_writeReg, hk]

/-- No instruction changes a register outside its row's writes. -/
theorem exec_keeps_register {i : Instr} {k : RegNum} (h : exec i s = .next t) (hk : Instr.writes i ≠ some k) :
    KeepsRegister s t k := by
  cases hw : Instr.writes i with
  | some r =>
    obtain ⟨v, rfl⟩ := exec_eq_finishReg hw h
    exact s.finishReg_keepsRegister v fun e => hk (by rw [hw, e])
  | none =>
    obtain ⟨hcfg, hdraw, hregs, hmarks⟩ := exec_keeps_all_registers hw h
    simp [KeepsRegister, State.readReg, State.isWritten, State.isHardwired, hcfg, hdraw, hregs, hmarks]

end

/-! ## The registers an instruction reads -/

/-- The two outcomes agree but for registers outside `w`: the same fault, or next states with the same pc, the same data
memory and the same value in the register written (10_state.md R14). -/
inductive AgreeingResults (w : Option RegNum) : StepResult → StepResult → Prop where
  | next {t t' : State} (hpc : t.pc = t'.pc) (hdmem : t.dmem = t'.dmem)
      (hread : ∀ r, w = some r → t.readReg r = t'.readReg r) : AgreeingResults w (.next t) (.next t')
  | fault (f : Fault) : AgreeingResults w (.fault f) (.fault f)

section
variable {keep : List RegNum} {s s' : State}

theorem AgreeOn.pc_eq (h : AgreeOn keep s s') : s'.pc = s.pc := by rw [h.1]
theorem AgreeOn.cfg_eq (h : AgreeOn keep s s') : s'.cfg = s.cfg := by rw [h.1]
theorem AgreeOn.dmem_eq (h : AgreeOn keep s s') : s'.dmem = s.dmem := by rw [h.1]
theorem AgreeOn.draw_eq (h : AgreeOn keep s s') : s'.draw = s.draw := by rw [h.1]

theorem AgreeOn.isHardwired_eq (h : AgreeOn keep s s') (k : RegNum) : s'.isHardwired k = s.isHardwired k := by
  simp [State.isHardwired, h.cfg_eq]

theorem AgreeOn.readReg_eq (h : AgreeOn keep s s') {k : RegNum} (hk : k ∈ keep) : s'.readReg k = s.readReg k := by
  obtain ⟨hcontents, hmark⟩ := h.2 k hk
  simp only [State.readReg, h.isHardwired_eq, hmark, hcontents, h.cfg_eq, h.draw_eq]

theorem AgreeOn.dataAddressFault_eq (h : AgreeOn keep s s') (a : Word) :
    s'.dataAddressFault a = s.dataAddressFault a := by
  unfold State.dataAddressFault State.inDmemDomain
  rw [h.cfg_eq, h.pc_eq]

theorem AgreeOn.memRead_eq (h : AgreeOn keep s s') (a : Word) : s'.memRead a = s.memRead a := by
  unfold State.memRead
  rw [h.dataAddressFault_eq, h.dmem_eq, h.cfg_eq, h.pc_eq, h.draw_eq]

/-- Writing the same value to the same register and going on. -/
theorem AgreeOn.finishReg (h : AgreeOn keep s s') (r : RegNum) (v : Word) :
    AgreeingResults (some r) (.next (s.finishReg r v)) (.next (s'.finishReg r v)) := by
  refine .next (by simp [h.pc_eq]) (by simp [h.dmem_eq]) fun k hk => ?_
  cases hk
  simp [State.readReg_finishReg, h.isHardwired_eq]

/-- Reading a register both agree on, then going on alike. -/
theorem AgreeOn.withReg (h : AgreeOn keep s s') {w : Option RegNum} {i : RegNum} (hi : i ∈ keep)
    {k k' : Word → StepResult} (hk : ∀ v, AgreeingResults w (k v) (k' v)) :
    AgreeingResults w (s.withReg i k) (s'.withReg i k') := by
  unfold State.withReg
  rw [h.readReg_eq hi]
  cases s.readReg i with
  | ok v => exact hk v
  | error f => exact .fault f

theorem AgreeOn.rFormat {rs rt : RegNum} (h : AgreeOn [rs, rt] s s') (rd : RegNum) (ov : Word → Word → Bool)
    (g : Word → Word → Word) : AgreeingResults (some rd) (s.rFormat rd rs rt ov g) (s'.rFormat rd rs rt ov g) := by
  refine h.withReg (by simp) fun a => h.withReg (by simp) fun b => ?_
  rw [h.cfg_eq, h.pc_eq]
  split
  · exact .fault _
  · exact h.finishReg rd _

theorem AgreeOn.execLw {rt rs : RegNum} {imm : Imm16} (h : AgreeOn [rs] s s') :
    AgreeingResults (some rt) (execLw rt rs imm s) (execLw rt rs imm s') := by
  refine h.withReg (by simp) fun base => ?_
  rw [h.memRead_eq]
  cases s.memRead (effectiveAddress base imm) with
  | ok v => exact h.finishReg rt v
  | error f => exact .fault f

theorem AgreeOn.execSw {rt rs : RegNum} {imm : Imm16} (h : AgreeOn [rs, rt] s s') :
    AgreeingResults none (execSw rt rs imm s) (execSw rt rs imm s') := by
  refine h.withReg (by simp) fun base => h.withReg (by simp) fun v => ?_
  unfold State.memWrite
  rw [h.dataAddressFault_eq]
  cases s.dataAddressFault (effectiveAddress base imm) with
  | some f => exact .fault f
  | none => exact .next (by simp [h.pc_eq]) (by simp [h.dmem_eq, h.cfg_eq]) (by simp)

theorem AgreeOn.execBeq {rs rt : RegNum} {imm : Imm16} (h : AgreeOn [rs, rt] s s') :
    AgreeingResults none (execBeq rs rt imm s) (execBeq rs rt imm s') :=
  h.withReg (by simp) fun a => h.withReg (by simp) fun b => .next (by simp [h.pc_eq]) (by simp [h.dmem_eq]) (by simp)

theorem AgreeOn.execJ {imm26 : Imm26} (h : AgreeOn [] s s') :
    AgreeingResults none (execJ imm26 s) (execJ imm26 s') :=
  .next (by simp [h.pc_eq]) (by simp [h.dmem_eq]) (by simp)

/-- No instruction depends on a register outside its row's reads. -/
theorem AgreeOn.exec {i : Instr} (h : AgreeOn (Instr.reads i) s s') :
    AgreeingResults (Instr.writes i) (exec i s) (exec i s') := by
  cases i with
  | add rd rs rt => exact AgreeOn.rFormat h rd _ _
  | sub rd rs rt => exact AgreeOn.rFormat h rd _ _
  | and rd rs rt => exact AgreeOn.rFormat h rd _ _
  | or rd rs rt => exact AgreeOn.rFormat h rd _ _
  | slt rd rs rt => exact AgreeOn.rFormat h rd _ _
  | lw rt rs imm => exact AgreeOn.execLw h
  | sw rt rs imm => exact AgreeOn.execSw h
  | beq rs rt imm => exact AgreeOn.execBeq h
  | j imm26 => exact AgreeOn.execJ h

end

/-- Settles O22: the reads by agreement through every instruction, the writes by the frame of its destination. -/
theorem registerReadAndWriteSets : Obligations.RegisterReadAndWriteSets := by
  refine fun i s => ⟨fun s' h => ?_, fun t ht k hk => exec_keeps_register ht hk⟩
  have hagree := h.exec
  generalize exec i s = o, exec i s' = o' at hagree
  cases hagree with
  | next hpc hdmem hread => exact ⟨hpc, hdmem, hread⟩
  | fault f => rfl

/-! ## The next pc -/

theorem exec_pc_of_writes {i : Instr} {s t : State} {r : RegNum} (hw : Instr.writes i = some r)
    (h : exec i s = .next t) : t.pc = s.pc + 4#32 := by
  obtain ⟨v, rfl⟩ := exec_eq_finishReg hw h
  rfl

/-- Settles O50: the instructions with a destination go on, as `sw` does; `beq` decides by Zero; `j` jumps. -/
theorem nextPcOfEveryInstruction : Obligations.NextPcOfEveryInstruction := by
  intro i s t h
  cases i with
  | add rd rs rt => exact exec_pc_of_writes rfl h
  | sub rd rs rt => exact exec_pc_of_writes rfl h
  | and rd rs rt => exact exec_pc_of_writes rfl h
  | or rd rs rt => exact exec_pc_of_writes rfl h
  | slt rd rs rt => exact exec_pc_of_writes rfl h
  | lw rt rs imm => exact exec_pc_of_writes rfl h
  | sw rt rs imm => obtain ⟨_, _, -, -, -, -, rfl⟩ := execSw_eq_next.1 h; rfl
  | beq rs rt imm =>
    obtain ⟨a, b, ha, hb, rfl⟩ := execBeq_eq_next.1 h
    refine ⟨a, b, ha, hb, ?_⟩
    rw [aluZero_sub, State.setPc_pc]
    by_cases hab : a = b
    · exact .inl ⟨hab, by simp only [hab, decide_true, if_true]; rfl⟩
    · exact .inr ⟨hab, by simp only [hab, decide_false]; rfl⟩
  | j imm26 => cases h; rfl

/-! ## Register 0 -/

/-- An instruction whose destination is hardwired only goes on to `pc + 4` (10_state.md R12). -/
theorem State.finishReg_of_hardwired {s : State} {r : RegNum} (h : s.isHardwired r = true) (v : Word) :
    s.finishReg r v = { s with pc := s.pc + 4#32 } := by
  rw [State.finishReg, State.writeReg_of_hardwired h]; rfl

/-- Settles O19: a hardwired register 0 by the rule of writes to it, an ordinary one by the rule of every register. -/
theorem registerZero : Obligations.RegisterZero := by
  refine ⟨fun s hz => ?_, fun s hz v => ?_⟩
  · have hh : s.isHardwired 0#5 = true := by simp [State.isHardwired, hz]
    refine ⟨State.readReg_of_hardwired hh, State.writeReg_of_hardwired hh, fun rs rt a b ha hb hov i hi => ?_,
      fun rs imm base hbase => ⟨fun f hf => ?_, fun v hv => ?_⟩⟩
    · have goesOn : ∀ ov g, s.rFormat 0#5 rs rt ov g = .next { s with pc := s.pc + 4#32 } := fun ov g =>
        State.rFormat_eq_next.2
          ⟨a, b, ha, hb, by simp [hov], (State.finishReg_of_hardwired hh (g a b)).symm⟩
      simp only [List.mem_cons, List.not_mem_nil, or_false] at hi
      rcases hi with rfl | rfl | rfl | rfl | rfl
      all_goals exact goesOn _ _
    · exact execLw_eq_fault.2 (.inr ⟨base, hbase, hf⟩)
    · exact execLw_eq_next.2 ⟨base, v, hbase, hv, (State.finishReg_of_hardwired hh v).symm⟩
  · have hh : ∀ k, s.isHardwired k = false := fun k => by simp [State.isHardwired, hz]
    refine ⟨?_, fun k hk => ?_⟩
    · simp [State.readReg_writeReg, hh]
    · simp [State.readReg_writeReg, hh, hk]

end Sys2Proof.Machine
end

section
/-! PROOFS. Values nothing has written: O21, the reads of an unwritten register, and O59, no run stops at one under a
policy other than `fault`. O7, the step as the execution of the decoded bytes. -/

namespace Sys2Proof.Machine

/-! ## Unwritten registers -/

/-- Settles O21: the drawn value depends on the draw and the register only, and no cycle changes the draw or the
policy. -/
theorem unwrittenRegisterReads : Obligations.UnwrittenRegisterReads := by
  refine fun s i hw => ⟨State.readReg_eq_unwritten hw, fun hu => ⟨_, State.readReg_eq_drawn hw hu, fun n hwn => ?_⟩⟩
  obtain ⟨hcfg, hdraw⟩ := parametersNeverChange s n
  rw [State.readReg_eq_drawn hwn (hcfg ▸ hu), hdraw]

/-! ## Faults at values nothing has written -/

/-- The faults of a read of a register or data word that nothing has written (60_exceptions.md R136). -/
def Fault.OfUnwritten : Fault → Prop
  | .unwrittenRegister _ => True
  | .uninitialisedMemory _ _ => True
  | _ => False

theorem Fault.ne_of_not_ofUnwritten {f : Fault} (h : ¬ f.OfUnwritten) :
    (∀ r, f ≠ .unwrittenRegister r) ∧ ∀ p a, f ≠ .uninitialisedMemory p a := by
  refine ⟨?_, ?_⟩
  · rintro r rfl; exact h trivial
  · rintro p a rfl; exact h trivial

section
variable {s : State} {f : Fault}

theorem State.policy_of_readReg_error {i : RegNum} (h : s.readReg i = .error f) : s.cfg.unwritten = .fault :=
  (State.readReg_eq_error.1 h).2.1

theorem State.dataAddressFault_not_ofUnwritten {a : Word} (h : s.dataAddressFault a = some f) : ¬ f.OfUnwritten := by
  rcases State.dataAddressFault_eq_some.1 h with ⟨-, rfl⟩ | ⟨-, -, rfl⟩
  · exact id
  · exact id

theorem State.policy_of_rFormat_fault {rd rs rt : RegNum} {ov : Word → Word → Bool} {g : Word → Word → Word}
    (h : s.rFormat rd rs rt ov g = .fault f) (hf : f.OfUnwritten) : s.cfg.unwritten = .fault := by
  rcases State.rFormat_eq_fault.1 h with h | ⟨a, -, h | ⟨b, -, -, -, rfl⟩⟩
  · exact State.policy_of_readReg_error h
  · exact State.policy_of_readReg_error h
  · exact hf.elim

/-- An instruction stops at a value nothing has written under the policy `fault` only (10_state.md R13;
20_memory.md R35). -/
theorem policy_of_exec_fault {i : Instr} (h : exec i s = .fault f) (hf : f.OfUnwritten) :
    s.cfg.unwritten = .fault := by
  cases i with
  | add rd rs rt => exact State.policy_of_rFormat_fault h hf
  | sub rd rs rt => exact State.policy_of_rFormat_fault h hf
  | and rd rs rt => exact State.policy_of_rFormat_fault h hf
  | or rd rs rt => exact State.policy_of_rFormat_fault h hf
  | slt rd rs rt => exact State.policy_of_rFormat_fault h hf
  | lw rt rs imm =>
    rcases execLw_eq_fault.1 h with h | ⟨base, -, h⟩
    · exact State.policy_of_readReg_error h
    · rcases State.memRead_eq_error.1 h with h | ⟨-, -, hu, -⟩
      · exact absurd hf (State.dataAddressFault_not_ofUnwritten h)
      · exact hu
  | sw rt rs imm =>
    rcases execSw_eq_fault.1 h with h | ⟨base, -, h | ⟨v, -, h⟩⟩
    · exact State.policy_of_readReg_error h
    · exact State.policy_of_readReg_error h
    · exact absurd hf (State.dataAddressFault_not_ofUnwritten h)
  | beq rs rt imm =>
    rcases execBeq_eq_fault.1 h with h | ⟨a, -, h⟩
    · exact State.policy_of_readReg_error h
    · exact State.policy_of_readReg_error h
  | j imm26 => cases h

/-! ## The faults of a step -/

theorem State.iFetch_eq_error {a : Word} (h : s.iFetch a = .error f) : f = .fetchFault a := by
  unfold State.iFetch at h
  split at h
  · split at h
    · cases h
    · cases h; rfl
  · cases h; rfl

/-- What stops a cycle before decode: a fault recorded earlier, or the fetch (60_exceptions.md R135, R141). -/
theorem State.cycleWord_eq_fault (h : s.cycleWord = .fault f) : s.fault = some f ∨ f = .fetchFault s.pc := by
  unfold State.cycleWord at h
  split at h
  · split at h
    · next g hg => cases h; exact .inl hg
    · split at h
      · cases h
      · cases hi : s.iFetch s.pc with
        | ok w => simp [hi] at h
        | error g =>
          simp only [hi, Host.Outcome.fault.injEq] at h
          exact .inr (State.iFetch_eq_error (h ▸ hi))
  · cases h

/-- Where a fault of the step comes from (60_exceptions.md R142). -/
theorem step_eq_fault (h : step s = .fault f) :
    s.fault = some f ∨ f = .fetchFault s.pc ∨ (∃ w, f = .illegalInstruction s.pc w) ∨ ∃ i, exec i s = .fault f := by
  unfold step State.cycleInstr at h
  cases hw : s.cycleWord with
  | refused r => simp [hw] at h
  | fault g =>
    simp only [hw, Host.Outcome.fault.injEq] at h
    exact (State.cycleWord_eq_fault (h ▸ hw)).imp_right .inl
  | next w =>
    cases hd : decode w with
    | error e => simp only [hw, hd, Host.Outcome.fault.injEq] at h; exact .inr (.inr (.inl ⟨w, h.symm⟩))
    | ok i => simp only [hw, hd] at h; exact .inr (.inr (.inr ⟨i, h⟩))

end

/-! ## Runs under a policy other than `fault` -/

/-- A state of a run in which every read has a value: the policy is not `fault`, and no record is of an unwritten
value. -/
def State.ReadsHaveValues (s : State) : Prop :=
  s.cfg.unwritten ≠ .fault ∧ ∀ f, s.fault = some f → ¬ f.OfUnwritten

theorem State.ReadsHaveValues.step_fault {s : State} {f : Fault} (hs : s.ReadsHaveValues) (h : step s = .fault f) :
    ¬ f.OfUnwritten := by
  obtain ⟨hpolicy, hrecord⟩ := hs
  rcases step_eq_fault h with hf | rfl | ⟨w, rfl⟩ | ⟨i, hx⟩
  · exact hrecord f hf
  · exact id
  · exact id
  · exact fun hf => hpolicy (policy_of_exec_fault hx hf)

theorem State.ReadsHaveValues.cycle (s : State) (hs : s.ReadsHaveValues) : s.cycle.ReadsHaveValues := by
  refine ⟨s.cycle_parameters.1 ▸ hs.1, fun g hg => ?_⟩
  rcases s.cycle_cases with h | ⟨f, hf, h⟩ | ⟨r, -, h⟩
  · obtain ⟨w, i, -, -, hx⟩ := step_eq_next h
    obtain ⟨-, -, hfault, -⟩ := exec_sameRest hx
    exact hs.2 g (hfault ▸ hg)
  · rw [h] at hg
    cases hr : s.fault with
    | none =>
      rw [State.recordFault_of_none s f hr] at hg
      cases hg
      exact hs.step_fault hf
    | some k =>
      rw [State.recordFault_of_some s f k hr] at hg
      exact hs.2 g hg
  · exact hs.2 g (h ▸ hg)

/-- No step of a run under a policy other than `fault` stops at a value nothing has written. -/
theorem run_fault_not_ofUnwritten {s : State} (hu : s.cfg.unwritten ≠ .fault) (hn : s.fault = none) (n : Nat)
    {f : Fault} (hf : step (State.cycles n s) = .fault f) : ¬ f.OfUnwritten :=
  (State.cycles_induction State.ReadsHaveValues.cycle n ⟨hu, by simp [hn]⟩).step_fault hf

/-- Settles O59: the policy and the absence of such a record are kept by every cycle; `State.reset` has the policy
`init`. -/
theorem unwrittenValueNeverStopsRun : Obligations.UnwrittenValueNeverStopsRun := by
  have hinit : State.reset.cfg.unwritten ≠ .fault := by decide
  exact ⟨fun s hu hn n f hf => Fault.ne_of_not_ofUnwritten (run_fault_not_ofUnwritten hu hn n hf),
    fun program image n f hf => Fault.ne_of_not_ofUnwritten
      (run_fault_not_ofUnwritten (s := { State.reset with imem := program, dmem := image }) hinit rfl n hf)⟩

/-! ## The step -/

theorem decode_of_decodeBytes {order : ByteOrder} {b0 b1 b2 b3 : Byte} {i : Instr}
    (h : decodeBytes order [b0, b1, b2, b3] = .ok (i, [])) : decode (assembleWord order b0 b1 b2 b3) = .ok i := by
  unfold decodeBytes at h
  cases hd : decode (assembleWord order b0 b1 b2 b3) with
  | ok i' => simp only [hd, Except.ok.injEq, Prod.mk.injEq, and_true] at h; rw [h]
  | error e => simp [hd] at h

/-- Settles O7: the four bytes are the word fetched, and the step runs what it decodes to. -/
theorem stepRunsDecodedInstruction : Obligations.StepRunsDecodedInstruction := by
  intro s b0 b1 b2 b3 i hcfg hfault hend hpc h0 h1 h2 h3 hdec
  have ha : isAligned s.pc = true := isAligned_iff.2 hpc
  have hword := Memory.readWord_of_bytes s.cfg.byteOrder ha h0 h1 h2 h3
  exact step_of_decode (State.cycleWord_eq_next.2 ⟨hcfg, hfault, hend, ha, hword⟩) (decode_of_decodeBytes hdec)

end Sys2Proof.Machine
end

section
/-! PROOFS. Memory access and its order: O31, O33, O32, the words and their checks; O37, a stored word stays; O43, no
run changes what a fetch gives. -/

namespace Sys2Proof.Machine

/-! ## The bytes of a word -/

/-- The two byte orders, as the statements write them (20_memory.md R30). -/
theorem assembleWord_eq_ite (order : ByteOrder) (b0 b1 b2 b3 : Byte) :
    assembleWord order b0 b1 b2 b3 = if order = .big then b0 ++ b1 ++ b2 ++ b3 else b3 ++ b2 ++ b1 ++ b0 := by
  cases order <;> rfl

/-- Byte `k` of an aligned word just written, at its plain address. -/
theorem Memory.read_writeWord_aligned (m : Memory) (order : ByteOrder) {a : Word} (ha : isAligned a = true) (v : Word)
    (k : Fin 4) : (m.writeWord order a v).read (a.toNat + k.val) = some (byteOfWord order v k) := by
  rw [← byteAddr_of_aligned ha k]
  exact m.read_writeWord_byte order a v k

section
variable {s : State} {a v : Word}

/-- A fetch of a word that is listed (20_memory.md R37). -/
theorem State.iFetch_of_listed (ha : isAligned a = true) (hv : s.imem.readWord s.cfg.byteOrder a = some v) :
    s.iFetch a = .ok v := by
  simp [State.iFetch, ha, hv]

end

/-- Settles O31: the four listed bytes assemble to the word that a data read and a fetch answer, and a stored word reads
back byte by byte. -/
theorem wordByteOrder : Obligations.WordByteOrder := by
  intro m a b0 b1 b2 b3 hmod h0 h1 h2 h3
  have ha : isAligned a = true := isAligned_iff.2 hmod
  have word (order : ByteOrder) : m.readWord order a = some (assembleWord order b0 b1 b2 b3) :=
    Memory.readWord_of_bytes order ha h0 h1 h2 h3
  refine ⟨word .big, word .little, fun s hm hd => ?_, fun s hm => ?_, fun v => ?_⟩
  · rw [← assembleWord_eq_ite]
    exact State.memRead_of_listed ha hd (hm ▸ word _)
  · rw [← assembleWord_eq_ite]
    exact State.iFetch_of_listed ha (hm ▸ word _)
  · exact ⟨m.read_writeWord_aligned .big ha v 0, m.read_writeWord_aligned .big ha v 3,
      m.read_writeWord_aligned .little ha v 0, m.read_writeWord_aligned .little ha v 3⟩

/-! ## The checks of a data access -/

section
variable {s t : State} {a v : Word}

/-- The first check: a misaligned address (20_memory.md R32). -/
theorem State.dataAddressFault_of_misaligned (ha : a.toNat % 4 ≠ 0) :
    s.dataAddressFault a = some (.misalignedDataAddress s.pc a) :=
  State.dataAddressFault_eq_some.2 (.inl ⟨not_isAligned_iff.2 ha, rfl⟩)

/-- The second check: an aligned address outside the domain (20_memory.md R33, R34). -/
theorem State.dataAddressFault_of_outside (ha : a.toNat % 4 = 0) (hd : s.inDmemDomain a = false) :
    s.dataAddressFault a = some (.dataAccessFault s.pc a) :=
  State.dataAddressFault_eq_some.2 (.inr ⟨isAligned_iff.2 ha, hd, rfl⟩)

/-- `DMEM_DOMAIN` is a parameter (20_memory.md R36). -/
theorem State.inDmemDomain_congr (hc : t.cfg = s.cfg) (a : Word) : t.inDmemDomain a = s.inDmemDomain a := by
  simp only [State.inDmemDomain, hc]

/-- The word at `a` is the stored word `v`: a data access to `a` passes its checks and the four bytes are listed. -/
structure State.HoldsWord (s : State) (a v : Word) : Prop where
  aligned  : isAligned a = true
  inDomain : s.inDmemDomain a = true
  listed   : s.dmem.readWord s.cfg.byteOrder a = some v

theorem State.HoldsWord.memRead (h : s.HoldsWord a v) : s.memRead a = .ok v :=
  State.memRead_of_listed h.aligned h.inDomain h.listed

/-- `HoldsWord` speaks of the parameters and of the word at `a` only. -/
theorem State.HoldsWord.congr (h : s.HoldsWord a v) (hc : t.cfg = s.cfg)
    (hw : t.dmem.readWord s.cfg.byteOrder a = s.dmem.readWord s.cfg.byteOrder a) : t.HoldsWord a v where
  aligned  := h.aligned
  inDomain := (State.inDmemDomain_congr hc a).trans h.inDomain
  listed   := by rw [hc, hw, h.listed]

/-- A state whose data memory has just got the word `v` at `a` (20_memory.md R34). -/
theorem State.holdsWord_of_writeWord (ha : isAligned a = true) (hd : s.inDmemDomain a = true) (hc : t.cfg = s.cfg)
    (ht : t.dmem = s.dmem.writeWord s.cfg.byteOrder a v) : t.HoldsWord a v where
  aligned  := ha
  inDomain := (State.inDmemDomain_congr hc a).trans hd
  listed   := by rw [hc, ht, Memory.readWord_writeWord_same]

end

/-- Settles O33: the checks decide the faults; past them the memory is the old one with one word written. -/
theorem memWriteReplacesOneWord : Obligations.MemWriteReplacesOneWord := by
  intro s a v
  refine ⟨fun ha => ?_, fun ha hd => ?_, fun ha hd => ?_⟩
  · exact State.memWrite_eq_error.2 (State.dataAddressFault_of_misaligned ha)
  · exact State.memWrite_eq_error.2 (State.dataAddressFault_of_outside ha hd)
  · have ha : isAligned a = true := isAligned_iff.2 ha
    refine ⟨_, State.memWrite_eq_ok.2 ⟨ha, hd, rfl⟩, ?_, ?_, fun x hx => ?_, rfl⟩
    · exact State.HoldsWord.memRead (State.holdsWord_of_writeWord ha hd rfl rfl)
    · exact s.dmem.read_writeWord_aligned s.cfg.byteOrder ha v
    · exact s.dmem.read_writeWord_other _ a v fun k => byteAddr_of_aligned ha k ▸ hx k

/-- Settles O32: the checks decide the first two faults, then the listed bytes and the policy the answer. -/
theorem memReadChecksInOrder : Obligations.MemReadChecksInOrder := by
  intro s a
  refine ⟨fun ha => ?_, fun ha hd => ?_, fun ha hd => ?_⟩
  · exact State.memRead_eq_error.2 (.inl (State.dataAddressFault_of_misaligned ha))
  · exact State.memRead_eq_error.2 (.inl (State.dataAddressFault_of_outside ha hd))
  · have ha : isAligned a = true := isAligned_iff.2 ha
    refine ⟨fun v hv => State.memRead_of_listed ha hd hv, fun hn => ⟨fun hu => ?_, fun hu => ?_⟩⟩
    · exact State.memRead_eq_error.2 (.inr ⟨State.dataAddressFault_eq_none.2 ⟨ha, hd⟩, hn, hu, rfl⟩)
    · exact State.memRead_ok_of_policy ha hd (by simp [hu])

/-! ## A stored word stays until it is stored again -/

/-- The instruction of this cycle is no `sw` to address `a`. -/
def State.NoStoreTo (s : State) (a : Word) : Prop :=
  ∀ w rt rs imm base, s.cycleWord = .next w → decode w = .ok (.sw rt rs imm) → s.readReg rs = .ok base →
    effectiveAddress base imm ≠ a

section
variable {s t : State} {a v : Word}

/-- An instruction keeps every word it does not store to: a `sw` to another address writes other bytes, and no other
instruction writes data memory. -/
theorem exec_keeps_word {i : Instr} (h : exec i s = .next t) (hs : s.HoldsWord a v)
    (hno : ∀ rt rs imm base, i = .sw rt rs imm → s.readReg rs = .ok base → effectiveAddress base imm ≠ a) :
    t.HoldsWord a v := by
  obtain ⟨hcfg, -, -, -⟩ := exec_sameRest h
  refine hs.congr hcfg ?_
  rcases exec_eq_next h with
    ⟨r, u, rfl⟩ | ⟨rt, rs, imm, base, u, hi, hb, -, ha, -, rfl⟩ | ⟨_, rfl⟩ | rfl | ⟨_, -, rfl⟩
  · rw [State.finishReg_dmem]
  · exact Memory.readWord_writeWord_other _ _ _ u ha hs.aligned (hno rt rs imm base hi hb).symm
  all_goals rfl

/-- A cycle that is no `sw` to `a` keeps the word at `a`. -/
theorem State.HoldsWord.cycle (hs : s.HoldsWord a v) (hno : s.NoStoreTo a) : s.cycle.HoldsWord a v := by
  rcases s.cycle_cases with h | ⟨f, -, h⟩ | ⟨r, -, h⟩
  · obtain ⟨w, i, hw, hd, hx⟩ := step_eq_next h
    exact exec_keeps_word hx hs fun rt rs imm base hi => hno w rt rs imm base hw (hi ▸ hd)
  · rw [h]
    exact hs.congr (s.recordFault_cfg f) (by rw [s.recordFault_dmem])
  · rwa [h]

/-- The word at `a` stays through cycles none of which is a `sw` to `a`. -/
theorem State.HoldsWord.cycles (hs : s.HoldsWord a v) (n : Nat) (hno : ∀ k, k < n → (State.cycles k s).NoStoreTo a) :
    (State.cycles n s).HoldsWord a v := by
  induction n generalizing s with
  | zero => exact hs
  | succ n ih => exact ih (hs.cycle (hno 0 n.succ_pos)) fun k hk => hno (k + 1) (Nat.succ_lt_succ hk)

end

/-- Settles O37: after the `sw` the word at its address is `v`, and a cycle without a `sw` to that address keeps it. -/
theorem loadSeesLatestStore : Obligations.LoadSeesLatestStore := by
  intro s t rt rs imm base v hb hv h n hno
  obtain ⟨base', v', hb', hv', ha, hd, ht⟩ := execSw_eq_next.1 h
  obtain rfl : base = base' := Except.ok.inj (hb.symm.trans hb')
  obtain rfl : v = v' := Except.ok.inj (hv.symm.trans hv')
  have stored : t.HoldsWord (effectiveAddress base imm) v :=
    State.holdsWord_of_writeWord ha hd (by rw [ht]) (by rw [ht])
  exact (stored.cycles n hno).memRead

/-! ## No run changes what a fetch gives -/

/-- No cycle writes the instruction memory. -/
theorem State.cycle_imem (s : State) : s.cycle.imem = s.imem := by
  rcases s.cycle_cases with h | ⟨f, -, h⟩ | ⟨r, -, h⟩
  · obtain ⟨w, i, -, -, hx⟩ := step_eq_next h
    obtain ⟨-, himem, -, -⟩ := exec_sameRest hx
    exact himem
  · rw [h, State.recordFault_imem]
  · rw [h]

/-- A fetch depends on the instruction memory and the parameters only (20_memory.md R37). -/
theorem State.iFetch_congr {s t : State} (hi : t.imem = s.imem) (hc : t.cfg = s.cfg) (a : Word) :
    t.iFetch a = s.iFetch a := by
  simp only [State.iFetch, hi, hc]

/-- Settles O43: every cycle keeps the instruction memory, and no run changes the byte order. -/
theorem storesNeverReachFetch : Obligations.StoresNeverReachFetch := by
  intro s n
  have himem : (State.cycles n s).imem = s.imem :=
    State.cycles_induction (P := fun t => t.imem = s.imem) (fun t ht => t.cycle_imem.trans ht) n rfl
  obtain ⟨hcfg, -⟩ := parametersNeverChange s n
  exact ⟨himem, State.iFetch_congr himem hcfg⟩

end Sys2Proof.Machine
end

section
/-! PROOFS. The encoding: O2, O3, decode and encode agree in both directions; O4, the table of patterns says what a
word decodes to; O6, the target of a legal label. -/

namespace Sys2Proof

/-! ## A word from its fields (30_encoding.md R51 to R54) -/

theorem append_fields_rFormat (w : Word) :
    Word.opcode w ++ Word.rs w ++ Word.rt w ++ Word.rd w ++ Word.shamt w ++ Word.funct w = w := by
  unfold Word.opcode Word.rs Word.rt Word.rd Word.shamt Word.funct
  rw [BitVec.extractLsb'_append_extractLsb'_eq_extractLsb' (rfl : 26 = 21 + 5),
    BitVec.extractLsb'_append_extractLsb'_eq_extractLsb' (rfl : 21 = 16 + 5),
    BitVec.extractLsb'_append_extractLsb'_eq_extractLsb' (rfl : 16 = 11 + 5),
    BitVec.extractLsb'_append_extractLsb'_eq_extractLsb' (rfl : 11 = 6 + 5),
    BitVec.extractLsb'_append_extractLsb'_eq_extractLsb' (rfl : 6 = 0 + 6)]
  exact BitVec.extractLsb'_eq_self

theorem encodeR_fields {w : Word} {funct : BitVec 6} (ho : Word.opcode w = 0b000000#6) (hs : Word.shamt w = 0#5)
    (hf : Word.funct w = funct) : encodeR (Word.rs w) (Word.rt w) (Word.rd w) funct = w := by
  rw [encodeR, ← ho, ← hs, ← hf]
  exact append_fields_rFormat w

theorem encodeI_fields {w : Word} {opcode : BitVec 6} (ho : Word.opcode w = opcode) :
    encodeI opcode (Word.rs w) (Word.rt w) (Word.imm w) = w := by
  unfold encodeI Word.rs Word.rt Word.imm
  rw [← ho, Word.opcode,
    BitVec.extractLsb'_append_extractLsb'_eq_extractLsb' (rfl : 26 = 21 + 5),
    BitVec.extractLsb'_append_extractLsb'_eq_extractLsb' (rfl : 21 = 16 + 5),
    BitVec.extractLsb'_append_extractLsb'_eq_extractLsb' (rfl : 16 = 0 + 16)]
  exact BitVec.extractLsb'_eq_self

theorem encodeJ_fields {w : Word} {opcode : BitVec 6} (ho : Word.opcode w = opcode) :
    encodeJ opcode (Word.imm26 w) = w := by
  unfold encodeJ Word.imm26
  rw [← ho, Word.opcode,
    BitVec.extractLsb'_append_extractLsb'_eq_extractLsb' (rfl : 26 = 0 + 26)]
  exact BitVec.extractLsb'_eq_self

/-! ## Decode and encode -/

/-- The word of an instruction decodes to it: its opcode, shamt and funct select its arm of `decode`, and each operand
is the field it was put into. -/
theorem decode_encode (i : Instr) : decode (encode i) = .ok i := by
  cases i with
  | add rd rs rt | sub rd rs rt | and rd rs rt | or rd rs rt | slt rd rs rt =>
    simp [encode, decode, opcode_encodeR, shamt_encodeR, funct_encodeR, rd_encodeR, rs_encodeR, rt_encodeR]
  | lw rt rs imm | sw rt rs imm | beq rs rt imm =>
    simp [encode, decode, opcode_encodeI, rs_encodeI, rt_encodeI, imm_encodeI]
  | j imm26 => simp [encode, decode, opcode_encodeJ, imm26_encodeJ]

/-- Settles O3: the arm of `decode` that answers tests every bit of the word that is not a field of its instruction. -/
theorem encodeOfDecode : Obligations.EncodeOfDecode := by
  intro w i h
  unfold decode at h
  split at h
  · next ho =>
    split at h
    · next hs =>
      split at h
      · next hf => cases h; exact encodeR_fields ho hs hf
      split at h
      · next hf => cases h; exact encodeR_fields ho hs hf
      split at h
      · next hf => cases h; exact encodeR_fields ho hs hf
      split at h
      · next hf => cases h; exact encodeR_fields ho hs hf
      split at h
      · next hf => cases h; exact encodeR_fields ho hs hf
      · cases h
    · cases h
  split at h
  · next ho => cases h; exact encodeI_fields ho
  split at h
  · next ho => cases h; exact encodeI_fields ho
  split at h
  · next ho => cases h; exact encodeI_fields ho
  split at h
  · next ho => cases h; exact encodeJ_fields ho
  · cases h

/-- The decoder takes the four bytes of an instruction and leaves what follows them, in either byte order. -/
theorem decodeBytes_encodeBytes (order : ByteOrder) (i : Instr) (rest : List Byte) :
    decodeBytes order (encodeBytes order i ++ rest) = .ok (i, rest) := by
  simp [encodeBytes, decodeBytes, Machine.assembleWord_bytes, decode_encode]

/-- Settles O2: the word decodes to the instruction, and the four bytes are the word's in the order they are read. -/
theorem decodeOfEncode : Obligations.DecodeOfEncode :=
  fun i => ⟨decode_encode i, fun order rest => decodeBytes_encodeBytes order i rest⟩

/-! ## The match and mask table (30_encoding.md R57) -/

section
variable {w p : Word} {i : Instr} {funct opcode : BitVec 6}

theorem decode_of_encode_eq (h : encode i = w) : decode w = .ok i := h ▸ decode_encode i

/-- A word that matches an R-format row is the row's funct with the word's own registers. -/
theorem encodeR_of_match (h : w &&& 0xFC0007FF#32 = p) (hp : p.extractLsb' 11 15 = 0#15)
    (ho : Word.opcode p = 0b000000#6) (hs : Word.shamt p = 0#5) (hf : Word.funct p = funct) :
    encodeR (Word.rs w) (Word.rt w) (Word.rd w) funct = w := by
  obtain ⟨howp, hswp, hfwp⟩ := (matches_rFormat w p hp).1 h
  exact encodeR_fields (howp.trans ho) (hswp.trans hs) (hfwp.trans hf)

/-- A word that matches an I-format row is the row's opcode with the word's own registers and immediate. -/
theorem encodeI_of_match (h : w &&& 0xFC000000#32 = p) (hp : Word.imm26 p = 0#26) (ho : Word.opcode p = opcode) :
    encodeI opcode (Word.rs w) (Word.rt w) (Word.imm w) = w :=
  encodeI_fields (((matches_opcode w p hp).1 h).trans ho)

/-- A word that matches a J-format row is the row's opcode with the word's own 26-bit field. -/
theorem encodeJ_of_match (h : w &&& 0xFC000000#32 = p) (hp : Word.imm26 p = 0#26) (ho : Word.opcode p = opcode) :
    encodeJ opcode (Word.imm26 w) = w :=
  encodeJ_fields (((matches_opcode w p hp).1 h).trans ho)

end

/-- The word of every instruction matches a row. -/
theorem encode_matches_row (i : Instr) : Laws.EncodeMatchesRow.Statement i := by
  cases i with
  | add rd rs rt => exact Laws.EncodeMatchesRow.add rd rs rt
  | sub rd rs rt => exact Laws.EncodeMatchesRow.sub rd rs rt
  | and rd rs rt => exact Laws.EncodeMatchesRow.and rd rs rt
  | or rd rs rt => exact Laws.EncodeMatchesRow.or rd rs rt
  | slt rd rs rt => exact Laws.EncodeMatchesRow.slt rd rs rt
  | lw rt rs imm => exact Laws.EncodeMatchesRow.lw rt rs imm
  | sw rt rs imm => exact Laws.EncodeMatchesRow.sw rt rs imm
  | beq rs rt imm => exact Laws.EncodeMatchesRow.beq rs rt imm
  | j imm26 => exact Laws.EncodeMatchesRow.j imm26

/-- A legal word is the word of its instruction, so a word that matches no row is not legal. -/
theorem decode_eq_error_of_no_match {w : Word} (h : ∀ r ∈ opcodeRows, w &&& r.mask ≠ r.pattern) :
    ∃ e, decode w = .error e := by
  cases hd : decode w with
  | error e => exact ⟨e, rfl⟩
  | ok i =>
    obtain ⟨r, hr, -, hm⟩ := encode_matches_row i
    rw [encodeOfDecode w i hd] at hm
    exact absurd hm (h r hr)

/-- Two different rows ask different values of a bit that both masks test. -/
theorem opcodeRows_disagree : ∀ r ∈ opcodeRows, ∀ r' ∈ opcodeRows,
    r.pattern &&& r'.mask = r'.pattern &&& r.mask → r = r' := by decide

theorem opcodeRow_unique {w : Word} {r r' : OpcodeRow} (hr : r ∈ opcodeRows) (hr' : r' ∈ opcodeRows)
    (h : w &&& r.mask = r.pattern) (h' : w &&& r'.mask = r'.pattern) : r = r' := by
  refine opcodeRows_disagree r hr r' hr' ?_
  rw [← h, ← h', BitVec.and_assoc, BitVec.and_assoc, BitVec.and_comm r.mask]

/-- The step on a word that does not decode (60_exceptions.md R132). -/
theorem Machine.step_of_decode_error {s : Machine.State} {w : Word} {e : DecodeError} (hw : s.cycleWord = .next w)
    (hd : decode w = .error e) : Machine.step s = .fault (.illegalInstruction s.pc w) := by
  simp [Machine.step, Machine.State.cycleInstr, hw, hd]

/-- Settles O4: a matching word is the encoding of its row's instruction, a word without a row decodes to nothing, and
two rows never match one word. -/
theorem decodeByPatterns : Obligations.DecodeByPatterns := fun w =>
  ⟨fun h => decode_of_encode_eq (encodeR_of_match h (by decide) (by decide) (by decide) (by decide)),
    fun h => decode_of_encode_eq (encodeR_of_match h (by decide) (by decide) (by decide) (by decide)),
    fun h => decode_of_encode_eq (encodeR_of_match h (by decide) (by decide) (by decide) (by decide)),
    fun h => decode_of_encode_eq (encodeR_of_match h (by decide) (by decide) (by decide) (by decide)),
    fun h => decode_of_encode_eq (encodeR_of_match h (by decide) (by decide) (by decide) (by decide)),
    fun h => decode_of_encode_eq (encodeI_of_match h (by decide) (by decide)),
    fun h => decode_of_encode_eq (encodeI_of_match h (by decide) (by decide)),
    fun h => decode_of_encode_eq (encodeI_of_match h (by decide) (by decide)),
    fun h => decode_of_encode_eq (encodeJ_of_match h (by decide) (by decide)),
    fun h => by
      obtain ⟨e, he⟩ := decode_eq_error_of_no_match h
      exact ⟨⟨e, he⟩, fun s hs => Machine.step_of_decode_error hs he⟩,
    fun _ hr _ hr' h h' => opcodeRow_unique hr hr' h h'⟩

/-! ## Labels (30_encoding.md R64) -/

section
variable {A L : Word}

/-- A legal difference `4 * n` has `n` in the signed 16-bit range, so the field keeps it whole. -/
theorem branchTarget_label (h : Asm.branchTargetOk A (.label L) = true) :
    Machine.branchTarget A (branchField A (.label L)) = L := by
  simp only [Asm.branchTargetOk, Bool.and_eq_true, decide_eq_true_eq] at h
  obtain ⟨⟨hmod, hlow⟩, hhigh⟩ := h
  have hfield : (branchField A (.label L)).toInt = (L - (A + 4#32)).toInt / 4 :=
    BitVec.toInt_ofInt_eq_self (by decide) (by omega) (by omega)
  calc Machine.branchTarget A (branchField A (.label L))
      = A + 4#32 + BitVec.ofInt 32 (4 * ((L - (A + 4#32)).toInt / 4)) := by
        rw [Machine.branchTarget, Machine.sext32_shift, hfield, Machine.pcPlus4]
    _ = A + 4#32 + (L - (A + 4#32)) := by
        rw [Int.mul_ediv_cancel' (Int.dvd_of_emod_eq_zero hmod), BitVec.ofInt_toInt]
    _ = L := add_sub_cancel _ _

/-- A legal label has the region of `A + 4` above its field and 00 below it. -/
theorem jumpTarget_label (h : Asm.jumpTargetOk A (.label L) = true) :
    Machine.jumpTarget A (jumpField (.label L)) = L := by
  simp only [Asm.jumpTargetOk, Bool.and_eq_true, decide_eq_true_eq] at h
  obtain ⟨hlow, hregion⟩ := h
  rw [Machine.jumpTarget, jumpField, Machine.pcPlus4, ← hregion, ← hlow]
  rw [BitVec.extractLsb'_append_extractLsb'_eq_extractLsb' (rfl : 28 = 2 + 26),
    BitVec.extractLsb'_append_extractLsb'_eq_extractLsb' (rfl : 2 = 0 + 2)]
  exact BitVec.extractLsb'_eq_self

end

/-- Settles O6: a legal line assembles with the label's field, and the target of that field is the label. -/
theorem labelsReachTheirAddress : Obligations.LabelsReachTheirAddress := by
  refine fun A L => ⟨fun rs rt h => ⟨_, by rw [assemble, if_pos h], ?_⟩,
    fun h => ⟨_, by rw [assemble, if_pos h], jumpTarget_label h⟩⟩
  simp only [Asm.wellFormed, Bool.and_eq_true] at h
  obtain ⟨-, htarget⟩ := h
  exact branchTarget_label htarget

end Sys2Proof
end

section
/-! PROOFS. Arithmetic and logic: O28, the sign bits say that the true result is not representable; O23 to O27, what
`add`, `sub`, `and`, `or` and `slt` write and when they fault; O30, what the five leave. -/

namespace Sys2Proof.Machine

/-! ## Signed overflow (40_arithmetic_logic.md R70) -/

theorem addOverflows_eq_saddOverflow (a b : Word) : addOverflows a b = a.saddOverflow b :=
  (BitVec.saddOverflow_eq a b).symm

theorem subOverflows_eq_ssubOverflow (a b : Word) : subOverflows a b = a.ssubOverflow b := by
  rw [BitVec.ssubOverflow_eq, subOverflows]
  cases a.msb <;> cases b.msb <;> simp

theorem addOverflows_iff (a b : Word) : addOverflows a b = true ↔ SumUnrepresentable a b := by
  rw [addOverflows_eq_saddOverflow, BitVec.saddOverflow, SumUnrepresentable, Bool.or_eq_true, decide_eq_true_iff,
    decide_eq_true_iff]
  omega

theorem subOverflows_iff (a b : Word) : subOverflows a b = true ↔ DifferenceUnrepresentable a b := by
  rw [subOverflows_eq_ssubOverflow, BitVec.ssubOverflow, DifferenceUnrepresentable, Bool.or_eq_true,
    decide_eq_true_iff, decide_eq_true_iff]
  omega

/-- Settles O28: the sign-bit conditions are the library's signed overflow of `+` and `-`, which compares the true
result with the ends of the signed range. -/
theorem overflowExactlyUnrepresentable : Obligations.OverflowExactlyUnrepresentable :=
  fun a b => ⟨addOverflows_iff a b, subOverflows_iff a b⟩

/-! ## The results as numbers (40_arithmetic_logic.md R71, R72) -/

theorem ofNat_toNat_add_mod (a b : Word) : BitVec.ofNat 32 ((a.toNat + b.toNat) % 2 ^ 32) = a + b :=
  BitVec.eq_of_toNat_eq (by simp [BitVec.toNat_add])

theorem ofInt_toNat_sub (a b : Word) : BitVec.ofInt 32 ((a.toNat : Int) - b.toNat) = a - b := by
  apply BitVec.eq_of_toInt_eq
  rw [BitVec.toInt_ofInt, BitVec.toInt_sub, BitVec.toInt_eq_toNat_bmod a, BitVec.toInt_eq_toNat_bmod b,
    Int.bmod_sub_bmod, Int.sub_bmod_bmod]

/-! ## What an R-format instruction does (40_arithmetic_logic.md R76) -/

/-- An instruction that ends by writing `r` completes: `finishReg` sets that register and the pc, nothing else. -/
theorem CompletesWriting.of_finishReg {i : Instr} {s : State} {r : RegNum} {v : Word}
    (h : exec i s = .next (s.finishReg r v)) : CompletesWriting i s r v :=
  ⟨s.finishReg r v, h, rfl, fun k => s.readReg_finishReg r k v, by simp [SameDmem], by simp [SameRest]⟩

theorem State.Unreadable.readReg_eq {s : State} {i : RegNum} (h : s.Unreadable i) :
    s.readReg i = .error (.unwrittenRegister i) :=
  State.readReg_eq_unwritten h.1 h.2

section
variable {s : State} {rd rs rt : RegNum} {ov : Word → Word → Bool} {g : Word → Word → Word} {a b : Word}

/-- The first source is read before anything else (60_exceptions.md R136). -/
theorem State.rFormat_of_unreadable_first (h : s.Unreadable rs) :
    s.rFormat rd rs rt ov g = .fault (.unwrittenRegister rs) :=
  State.rFormat_eq_fault.2 (.inl h.readReg_eq)

/-- The second source is read before the overflow check (60_exceptions.md R136). -/
theorem State.rFormat_of_unreadable_second (ha : s.readReg rs = .ok a) (h : s.Unreadable rt) :
    s.rFormat rd rs rt ov g = .fault (.unwrittenRegister rt) :=
  State.rFormat_eq_fault.2 (.inr ⟨a, ha, .inl h.readReg_eq⟩)

theorem State.rFormat_of_overflow (ha : s.readReg rs = .ok a) (hb : s.readReg rt = .ok b)
    (hpol : s.cfg.overflow = .fault) (hov : ov a b = true) :
    s.rFormat rd rs rt ov g = .fault (.arithmeticOverflow s.pc) :=
  State.rFormat_eq_fault.2 (.inr ⟨a, ha, .inr ⟨b, hb, hpol, hov, rfl⟩⟩)

theorem State.rFormat_of_readable (ha : s.readReg rs = .ok a) (hb : s.readReg rt = .ok b)
    (hov : ¬ (s.cfg.overflow = .fault ∧ ov a b = true)) :
    s.rFormat rd rs rt ov g = .next (s.finishReg rd (g a b)) :=
  State.rFormat_eq_next.2 ⟨a, b, ha, hb, hov, rfl⟩

end

/-! ## The five instructions -/

/-- Settles O23: the row of `add`, and its two faults or its sum, with the sign-bit condition as representability. -/
theorem addWritesSum : Obligations.AddWritesSum := by
  refine ⟨fun w => ?_, by decide, fun s rd rs rt => ⟨State.rFormat_of_unreadable_first, fun a ha =>
    ⟨State.rFormat_of_unreadable_second ha, fun b hb => ⟨fun hno => ?_, fun hpol hun => ?_⟩⟩⟩⟩
  · obtain ⟨hadd, -⟩ := decodeByPatterns w
    exact hadd
  · rw [ofNat_toNat_add_mod]
    rw [← addOverflows_iff] at hno
    exact .of_finishReg (State.rFormat_of_readable ha hb hno)
  · exact State.rFormat_of_overflow ha hb hpol ((addOverflows_iff a b).2 hun)

/-- Settles O24: as `add`, with the row, the difference and the overflow of `sub`. -/
theorem subWritesDifference : Obligations.SubWritesDifference := by
  refine ⟨fun w => ?_, by decide, fun s rd rs rt => ⟨State.rFormat_of_unreadable_first, fun a ha =>
    ⟨State.rFormat_of_unreadable_second ha, fun b hb => ⟨fun hno => ?_, fun hpol hun => ?_⟩⟩⟩⟩
  · obtain ⟨-, hsub, -⟩ := decodeByPatterns w
    exact hsub
  · rw [ofInt_toNat_sub]
    rw [← subOverflows_iff] at hno
    exact .of_finishReg (State.rFormat_of_readable ha hb hno)
  · exact State.rFormat_of_overflow ha hb hpol ((subOverflows_iff a b).2 hun)

/-- Settles O25: `and` never overflows and writes `a &&& b`, whose bits the library gives. -/
theorem andWritesBits : Obligations.AndWritesBits := by
  refine ⟨fun w => ?_, by decide, fun s rd rs rt => ⟨State.rFormat_of_unreadable_first, fun a ha =>
    ⟨State.rFormat_of_unreadable_second ha, fun b hb => ⟨a &&& b, fun i _ => BitVec.getLsbD_and, ?_⟩⟩⟩⟩
  · obtain ⟨-, -, hand, -⟩ := decodeByPatterns w
    exact hand
  · exact .of_finishReg (State.rFormat_of_readable ha hb (by simp))

/-- Settles O26: `or` never overflows and writes `a ||| b`, whose bits the library gives. -/
theorem orWritesBits : Obligations.OrWritesBits := by
  refine ⟨fun w => ?_, by decide, fun s rd rs rt => ⟨State.rFormat_of_unreadable_first, fun a ha =>
    ⟨State.rFormat_of_unreadable_second ha, fun b hb => ⟨a ||| b, fun i _ => BitVec.getLsbD_or, ?_⟩⟩⟩⟩
  · obtain ⟨-, -, -, hor, -⟩ := decodeByPatterns w
    exact hor
  · exact .of_finishReg (State.rFormat_of_readable ha hb (by simp))

/-- Settles O27: `slt` never overflows and writes the value its comparison selects. -/
theorem sltWritesComparison : Obligations.SltWritesComparison := by
  refine ⟨fun w => ?_, by decide, fun s rd rs rt => ⟨State.rFormat_of_unreadable_first, fun a ha =>
    ⟨State.rFormat_of_unreadable_second ha, fun b hb => ?_⟩⟩⟩
  · obtain ⟨-, -, -, -, hslt, -⟩ := decodeByPatterns w
    exact hslt
  · have writes : CompletesWriting (.slt rd rs rt) s rd (if a.toInt < b.toInt then 1#32 else 0#32) :=
      .of_finishReg (State.rFormat_of_readable ha hb (by simp))
    exact ⟨fun hlt => by rwa [if_pos hlt] at writes, fun hge => by rwa [if_neg hge.not_gt] at writes⟩

/-! ## The frame of the five -/

/-- Settles O30: the five write rd and go on to `pc + 4`; rd itself is left where it is hardwired. -/
theorem rFormatFrame : Obligations.RFormatFrame := by
  intro s t rd rs rt i hi h
  have hw : Instr.writes i = some rd := by
    simp only [List.mem_cons, List.not_mem_nil, or_false] at hi
    rcases hi with rfl | rfl | rfl | rfl | rfl
    all_goals rfl
  obtain ⟨v, rfl⟩ := exec_eq_finishReg hw h
  refine ⟨fun k hk => ?_, by simp [pcPlus4]⟩
  rcases hk with hne | hhard
  · obtain ⟨hread, hregs, hmark⟩ := s.finishReg_keepsRegister v hne
    exact ⟨hregs, hmark, hread⟩
  · rw [State.finishReg_of_hardwired hhard]
    exact ⟨rfl, rfl, rfl⟩

end Sys2Proof.Machine
end

section
/-! PROOFS. Load and store: O34, what `lw` loads and when it faults; O35, what `sw` stores and when it faults; O36, what
the two leave. -/

namespace Sys2Proof.Machine

/-! ## What `lw` and `sw` do (41_load_store.md R81, R82) -/

section
variable {s : State} {rt rs : RegNum} {imm : Imm16} {base v : Word} {f : Fault}

/-- The base register is read before the data memory (60_exceptions.md R142). -/
theorem execLw_of_unreadable (h : s.Unreadable rs) : execLw rt rs imm s = .fault (.unwrittenRegister rs) :=
  execLw_eq_fault.2 (.inl h.readReg_eq)

theorem execLw_of_memRead_error (hb : s.readReg rs = .ok base) (h : s.memRead (effectiveAddress base imm) = .error f) :
    execLw rt rs imm s = .fault f :=
  execLw_eq_fault.2 (.inr ⟨base, hb, h⟩)

/-- A `lw` whose data read answers completes by writing the word to rt. -/
theorem CompletesWriting.lw (hb : s.readReg rs = .ok base) (h : s.memRead (effectiveAddress base imm) = .ok v) :
    CompletesWriting (.lw rt rs imm) s rt v :=
  .of_finishReg (execLw_eq_next.2 ⟨base, v, hb, h, rfl⟩)

/-- The base register is read before anything else (60_exceptions.md R142). -/
theorem execSw_of_unreadable_base (h : s.Unreadable rs) : execSw rt rs imm s = .fault (.unwrittenRegister rs) :=
  execSw_eq_fault.2 (.inl h.readReg_eq)

/-- The register to store is read before the address is checked (60_exceptions.md R142). -/
theorem execSw_of_unreadable_stored (hb : s.readReg rs = .ok base) (h : s.Unreadable rt) :
    execSw rt rs imm s = .fault (.unwrittenRegister rt) :=
  execSw_eq_fault.2 (.inr ⟨base, hb, .inl h.readReg_eq⟩)

theorem execSw_of_dataAddressFault (hb : s.readReg rs = .ok base) (hv : s.readReg rt = .ok v)
    (h : s.dataAddressFault (effectiveAddress base imm) = some f) : execSw rt rs imm s = .fault f :=
  execSw_eq_fault.2 (.inr ⟨base, hb, .inr ⟨v, hv, h⟩⟩)

end

/-- Settles O34: the row of `lw`, and for each answer of the data read the outcome of the load. -/
theorem lwLoadsWord : Obligations.LwLoadsWord := by
  refine ⟨fun w => ?_, by decide, fun s rt rs imm => ⟨execLw_of_unreadable, fun base hb => ?_⟩⟩
  · obtain ⟨-, -, -, -, -, hlw, -⟩ := decodeByPatterns w
    exact hlw
  · obtain ⟨misaligned, outside, inside⟩ := memReadChecksInOrder s (effectiveAddress base imm)
    refine ⟨fun ha => execLw_of_memRead_error hb (misaligned ha),
      fun ha hd => execLw_of_memRead_error hb (outside ha hd), fun ha hd => ?_⟩
    obtain ⟨listed, unlisted⟩ := inside ha hd
    refine ⟨fun v hv => .lw hb (listed v hv), fun hn => ?_⟩
    obtain ⟨uninitialised, drawn⟩ := unlisted hn
    refine ⟨fun hu => execLw_of_memRead_error hb (uninitialised hu), fun hu => ?_⟩
    obtain ⟨v, hv⟩ := drawn hu
    exact ⟨v, .lw hb hv⟩

/-- An instruction whose row names no destination leaves the register file as it was (10_state.md R14). -/
theorem exec_sameRegs {i : Instr} {s t : State} (hw : Instr.writes i = none) (h : exec i s = .next t) :
    SameRegs s t := by
  obtain ⟨-, -, hregs, hmarks⟩ := exec_keeps_all_registers hw h
  refine ⟨hregs, hmarks, fun k => ?_⟩
  obtain ⟨hread, -, -⟩ := exec_keeps_register (k := k) h (by simp [hw])
  exact hread

/-- Settles O35: the row of `sw`, the address checks for its faults, and past them the old data memory with one word
written. -/
theorem swStoresWord : Obligations.SwStoresWord := by
  refine ⟨fun w => ?_, by decide, fun s rt rs imm => ⟨execSw_of_unreadable_base, fun base hb =>
    ⟨execSw_of_unreadable_stored hb, fun v hv => ⟨fun ha => ?_, fun ha hd => ?_, fun ha hd => ?_⟩⟩⟩⟩
  · obtain ⟨-, -, -, -, -, -, hsw, -⟩ := decodeByPatterns w
    exact hsw
  · exact execSw_of_dataAddressFault hb hv (State.dataAddressFault_of_misaligned ha)
  · exact execSw_of_dataAddressFault hb hv (State.dataAddressFault_of_outside ha hd)
  · have ha : isAligned (effectiveAddress base imm) = true := isAligned_iff.2 ha
    have stores : exec (.sw rt rs imm) s = .next _ := execSw_eq_next.2 ⟨base, v, hb, hv, ha, hd, rfl⟩
    refine ⟨_, stores, rfl, exec_sameRegs rfl stores, exec_sameRest stores, ?_, ?_, fun x hx => ?_⟩
    · exact State.HoldsWord.memRead (State.holdsWord_of_writeWord ha hd rfl rfl)
    · exact s.dmem.read_writeWord_aligned s.cfg.byteOrder ha v
    · exact s.dmem.read_writeWord_other _ _ v fun k => byteAddr_of_aligned ha k ▸ hx k

/-! ## The frame of the two -/

/-- The end of an instruction leaves every register but its destination, and that too where it is hardwired (10_state.md
R12). -/
theorem State.finishReg_keepsRegister_or_hardwired (s : State) {r k : RegNum} (v : Word)
    (hk : k ≠ r ∨ s.isHardwired r = true) : KeepsRegister s (s.finishReg r v) k := by
  rcases hk with hne | hhard
  · exact s.finishReg_keepsRegister v hne
  · rw [State.finishReg_of_hardwired hhard]
    exact ⟨rfl, rfl, rfl⟩

/-- Settles O36: `lw` ends by writing rt; `sw` writes no register, and of the data memory one word. -/
theorem loadStoreFrame : Obligations.LoadStoreFrame := by
  refine fun s t rt rs imm => ⟨fun h => ?_, fun h => ?_⟩
  · obtain ⟨v, rfl⟩ := exec_eq_finishReg rfl h
    refine ⟨fun k hk => ?_, by simp [pcPlus4]⟩
    obtain ⟨hread, hregs, hmark⟩ := s.finishReg_keepsRegister_or_hardwired v hk
    exact ⟨hregs, hmark, hread⟩
  · obtain ⟨hcfg, himem, hfault, hdraw⟩ := exec_sameRest h
    have registers (k : RegNum) : KeepsRegister s t k := exec_keeps_register h nofun
    obtain ⟨base, v, hb, -, -, -, rfl⟩ := execSw_eq_next.1 h
    refine ⟨fun k => ?_, rfl, fun base' hb' x hx => ?_, fun a => by rw [himem], hcfg, hfault, hdraw⟩
    · obtain ⟨hread, hregs, hmark⟩ := registers k
      exact ⟨hregs, hmark, hread⟩
    · obtain rfl : base = base' := Except.ok.inj (hb.symm.trans hb')
      exact s.dmem.read_writeWord_other _ _ v hx

end Sys2Proof.Machine
end

section
/-! PROOFS. Control transfer: O45, when `beq` branches and when it faults; O46, how far; O47, where `j` goes; O48, what
it reaches; O49, what the two leave; O51, a transfer to its own address. -/

namespace Sys2Proof.Machine

/-! ## What `beq` and `j` do (42_branch_jump.md R91, R93) -/

/-- An instruction that only replaces the pc completes there. -/
theorem CompletesAt.of_setPc {i : Instr} {s : State} {target : Word} (h : exec i s = .next (s.setPc target)) :
    CompletesAt i s target :=
  ⟨s.setPc target, h, rfl, ⟨rfl, rfl, fun _ => rfl⟩, fun _ => rfl, rfl, rfl, rfl, rfl⟩

section
variable {s : State} {rs rt : RegNum} {imm : Imm16} {a b : Word}

theorem execBeq_of_unreadable_first (h : s.Unreadable rs) : execBeq rs rt imm s = .fault (.unwrittenRegister rs) :=
  execBeq_eq_fault.2 (.inl h.readReg_eq)

theorem execBeq_of_unreadable_second (ha : s.readReg rs = .ok a) (h : s.Unreadable rt) :
    execBeq rs rt imm s = .fault (.unwrittenRegister rt) :=
  execBeq_eq_fault.2 (.inr ⟨a, ha, h.readReg_eq⟩)

/-- Equal registers: Zero = 1, the branch is taken (42_branch_jump.md R91). -/
theorem execBeq_of_eq (ha : s.readReg rs = .ok a) (hb : s.readReg rt = .ok a) :
    execBeq rs rt imm s = .next (s.setPc (branchTarget s.pc imm)) :=
  execBeq_eq_next.2 ⟨a, a, ha, hb, by rw [aluZero_sub, decide_eq_true rfl, if_pos rfl]⟩

/-- Different registers: Zero = 0, the branch is not taken (42_branch_jump.md R91). -/
theorem execBeq_of_ne (ha : s.readReg rs = .ok a) (hb : s.readReg rt = .ok b) (hne : a ≠ b) :
    execBeq rs rt imm s = .next (s.setPc (pcPlus4 s.pc)) :=
  execBeq_eq_next.2 ⟨a, b, ha, hb, by simp [aluZero_sub, hne]⟩

end

/-- The equations give subtraction for ALUOp = 01 before any bit of the funct counts (45_datapath_control.md R109). -/
theorem aluControl_branch (funct : BitVec 6) : aluControl false true funct = 0b0110#4 := by
  simp only [aluControl, Bool.true_or, Bool.not_false, Bool.false_and]
  rfl

/-- Settles O45: the row of `beq`, its source faults in order, and Zero of the difference as equality. -/
theorem beqBranchesOnEqual : Obligations.BeqBranchesOnEqual := by
  refine ⟨fun w => ?_, by decide, aluControl_branch, fun s rs rt imm => ⟨execBeq_of_unreadable_first, fun a ha =>
    ⟨execBeq_of_unreadable_second ha, fun b hb => ⟨fun hab => ?_, fun hne => ?_⟩⟩⟩⟩
  · obtain ⟨-, -, -, -, -, -, -, hbeq, -⟩ := decodeByPatterns w
    exact hbeq
  · subst hab
    exact .of_setPc (execBeq_of_eq ha hb)
  · exact .of_setPc (execBeq_of_ne ha hb hne)

/-- Settles O47: the row of `j`, which completes at its target whatever the state. -/
theorem jumpGoesToField : Obligations.JumpGoesToField := by
  refine ⟨fun w => ?_, ⟨_, rfl, rfl, rfl, rfl⟩, fun s imm26 => .of_setPc rfl⟩
  obtain ⟨-, -, -, -, -, -, -, -, hj, -⟩ := decodeByPatterns w
  exact hj

/-! ## How far the two reach (42_branch_jump.md R92, R94) -/

/-- A taken `beq` moves the pc by `4 + 4 * signed16(imm)`. -/
theorem branchTarget_eq (pc : Word) (imm : Imm16) :
    branchTarget pc imm = pc + BitVec.ofInt 32 (4 + 4 * imm.toInt) := by
  rw [branchTarget, sext32_shift, pcPlus4, BitVec.add_assoc, BitVec.ofInt_add]
  rfl

theorem displacement_bounds (imm : Imm16) : -131068 ≤ 4 + 4 * imm.toInt ∧ 4 + 4 * imm.toInt ≤ 131072 := by
  have hlow := BitVec.le_toInt imm
  have hhigh := BitVec.toInt_lt (x := imm)
  omega

/-- Settles O46: the target is the pc plus a displacement that a signed word holds. -/
theorem branchReach : Obligations.BranchReach := by
  intro pc imm
  have hbounds := displacement_bounds imm
  refine ⟨?_, ?_, hbounds⟩
  · rw [branchTarget_eq, BitVec.toNat_add, BitVec.toNat_ofInt]
    omega
  · rw [branchTarget_eq, add_sub_cancel_left]
    exact BitVec.toInt_ofInt_eq_self (by decide) (by omega) (by omega)

/-- The target of `j` as a number: the region of `pc + 4`, then the field in words. -/
theorem jumpTarget_toNat (pc : Word) (imm26 : Imm26) :
    (jumpTarget pc imm26).toNat = (pc + 4#32).toNat / 2 ^ 28 * 2 ^ 28 + 4 * imm26.toNat := by
  have hpc := (pc + 4#32).isLt
  rw [jumpTarget, pcPlus4, BitVec.toNat_append, BitVec.toNat_append,
    ← Nat.shiftLeft_add_eq_or_of_lt imm26.isLt, ← Nat.shiftLeft_add_eq_or_of_lt (by decide), BitVec.extractLsb'_toNat,
    Nat.shiftRight_eq_div_pow, Nat.shiftLeft_eq, Nat.shiftLeft_eq, show (0b00#2).toNat = 0 from rfl]
  omega

/-- Settles O48: an aligned address of the region is the target of its own bits 27:2. -/
theorem jumpReach : Obligations.JumpReach := by
  refine fun pc => ⟨jumpTarget_toNat pc, fun a ha hregion => ⟨a.extractLsb' 2 26, BitVec.eq_of_toNat_eq ?_⟩⟩
  have hlt := a.isLt
  rw [jumpTarget_toNat, ← hregion, BitVec.extractLsb'_toNat, Nat.shiftRight_eq_div_pow]
  omega

/-! ## The frame of the two -/

/-- A `beq` or `j` that answers a next state has only replaced the pc. -/
theorem exec_eq_setPc_of_transfer {s t : State} {i : Instr}
    (hi : (∃ rs rt imm, i = .beq rs rt imm) ∨ ∃ imm26, i = .j imm26) (h : exec i s = .next t) :
    ∃ target, t = s.setPc target := by
  rcases hi with ⟨rs, rt, imm, rfl⟩ | ⟨imm26, rfl⟩
  · obtain ⟨_, _, -, -, ht⟩ := execBeq_eq_next.1 h
    exact ⟨_, ht⟩
  · cases h
    exact ⟨_, rfl⟩

/-- Settles O49: replacing the pc leaves every other part of the state. -/
theorem branchJumpFrame : Obligations.BranchJumpFrame := by
  intro s t i hi h
  obtain ⟨target, rfl⟩ := exec_eq_setPc_of_transfer hi h
  exact ⟨fun _ => ⟨rfl, rfl, rfl⟩, fun _ => rfl, fun _ => rfl, rfl, rfl, rfl⟩

/-! ## A transfer to its own address (42_branch_jump.md R95) -/

/-- The field 0xFFFF is -1 word, which takes back the `+ 4`. -/
theorem branchTarget_self (pc : Word) : branchTarget pc 0xFFFF#16 = pc := by
  rw [branchTarget_eq, show BitVec.ofInt 32 (4 + 4 * (0xFFFF#16).toInt) = 0#32 by decide, BitVec.add_zero]

/-- A state whose step answers itself stays for any number of cycles, and is not over, since it has a step. -/
theorem State.cycles_of_step_self {s : State} {w : Word} (hw : s.cycleWord = .next w) (h : step s = .next s) (n : Nat) :
    State.cycles n s = s ∧ (State.cycles n s).runOver = false := by
  have hcycle : s.cycle = s := by simp [State.cycle, h]
  have stays : State.cycles n s = s :=
    State.cycles_induction (P := fun t => t = s) (fun t ht => by rw [ht, hcycle]) n rfl
  obtain ⟨-, -, hend, -⟩ := State.cycleWord_eq_next.1 hw
  exact ⟨stays, by simp [stays, State.runOver, hend]⟩

/-- Settles O51: a transfer to the pc it stands at is a step to the same state. -/
theorem jumpToItselfNeverEnds : Obligations.JumpToItselfNeverEnds := by
  refine fun s w hw => ⟨fun rs rt a hd hrs hrt => ?_, fun imm26 hd htarget => ?_⟩
  · refine State.cycles_of_step_self hw ?_
    calc step s = .next (s.setPc (branchTarget s.pc 0xFFFF#16)) := (step_of_decode hw hd).trans (execBeq_of_eq hrs hrt)
      _ = .next s := by rw [branchTarget_self]; rfl
  · refine State.cycles_of_step_self hw ?_
    calc step s = .next (s.setPc (jumpTarget s.pc imm26)) := step_of_decode hw hd
      _ = .next s := by rw [htarget]; rfl

end Sys2Proof.Machine
end

section
/-! PROOFS. The datapath (45_datapath_control.md): O54, the ALU control; O56, the ALU; O55, the control table; O53, the
don't-cares have no effect; O52, the two levels agree. -/

namespace Sys2Proof.Machine

/-! ## The ALU control (R107 to R109) -/

/-- The equations give addition for ALUOp = 00 before any bit of the funct counts (R109). -/
theorem aluControl_address (funct : BitVec 6) : aluControl false false funct = 0b0010#4 := by
  simp only [aluControl, Bool.false_or, Bool.not_false, Bool.true_or, Bool.false_and]
  rfl

theorem aluControl_getLsbD (op1 op0 : Bool) (funct : BitVec 6) :
    (aluControl op1 op0 funct).getLsbD 3 = false ∧
    (aluControl op1 op0 funct).getLsbD 2 = (op0 || (op1 && funct.getLsbD 1)) ∧
    (aluControl op1 op0 funct).getLsbD 1 = (!op1 || !funct.getLsbD 2) ∧
    (aluControl op1 op0 funct).getLsbD 0 = (op1 && (funct.getLsbD 3 || funct.getLsbD 0)) := by
  simp only [aluControl, BitVec.getLsbD_append, BitVec.getLsbD_ofBool]
  simp

/-- Off ALUOp = 11, a row that applies gives the equations' output: each row fixes the bits that the equations use. -/
theorem aluControl_eq_of_applies {op1 op0 : Bool} {funct : BitVec 6} (hop : ¬ (op1 = true ∧ op0 = true))
    {r : AluControlRow} (hr : r ∈ aluControlTable) (h : r.applies op1 op0 funct = true) :
    aluControl op1 op0 funct = r.operation := by
  simp only [aluControlTable, List.mem_cons, List.not_mem_nil, or_false] at hr
  rcases hr with rfl | rfl | rfl | rfl | rfl | rfl | rfl
  · obtain ⟨rfl, rfl⟩ : op1 = false ∧ op0 = false := by simpa [AluControlRow.applies, admitsBit] using h
    exact aluControl_address funct
  · obtain rfl : op0 = true := by simpa [AluControlRow.applies, admitsBit] using h
    obtain rfl : op1 = false := by simpa using hop
    exact aluControl_branch funct
  all_goals
    simp only [AluControlRow.applies, admitsBit, Bool.and_eq_true, beq_iff_eq, and_true] at h
    obtain ⟨⟨⟨⟨rfl, h3⟩, h2⟩, h1⟩, h0⟩ := h
    obtain rfl : op0 = false := by simpa using hop
    rw [aluControl, ← h3, ← h2, ← h1, ← h0]
    rfl

/-- Settles O54: the rows, the two ALUOp values that ignore the funct, and the equations bit by bit. -/
theorem aluControlEquations : Obligations.AluControlEquations :=
  ⟨fun _ _ _ hop _ hr h => aluControl_eq_of_applies hop hr h,
    fun funct => ⟨aluControl_address funct, aluControl_branch funct⟩, aluControl_getLsbD⟩

/-! ## The ALU (R110) -/

section
variable (a b : Word)

@[simp] theorem aluResult_and : aluResult 0b0000#4 a b = a &&& b := rfl
@[simp] theorem aluResult_or : aluResult 0b0001#4 a b = a ||| b := rfl
@[simp] theorem aluResult_add : aluResult 0b0010#4 a b = a + b := rfl
@[simp] theorem aluResult_sub : aluResult 0b0110#4 a b = a - b := rfl
@[simp] theorem aluResult_slt : aluResult 0b0111#4 a b = if a.toInt < b.toInt then 1#32 else 0#32 := rfl

end

theorem aluZero_iff (r : Word) : aluZero r = true ↔ r.toNat = 0 := by
  rw [aluZero, beq_iff_eq, BitVec.toNat_eq]
  rfl

/-- Settles O56: each listed code selects its operation, whose value the library gives. -/
theorem aluActions : Obligations.AluActions := by
  intro a b
  refine ⟨fun i _ => ?_, fun i _ => ?_, ?_, ?_, fun hlt => ?_, fun hge => ?_, aluZero_iff⟩
  · rw [aluResult_and, BitVec.getLsbD_and]
  · rw [aluResult_or, BitVec.getLsbD_or]
  · rw [aluResult_add, BitVec.toNat_add]
  · rw [aluResult_sub, BitVec.toNat_sub]
    omega
  · rw [aluResult_slt, if_pos hlt]
  · rw [aluResult_slt, if_neg hge.not_gt]

/-! ## The main control (R103, R105) -/

/-- Every instruction's opcode has a column of the control table. -/
theorem exists_mainControl_encode (i : Instr) : ∃ c, mainControl (Word.opcode (encode i)) = some c := by
  cases i with
  | add rd rs rt | sub rd rs rt | and rd rs rt | or rd rs rt | slt rd rs rt =>
    rw [encode, opcode_encodeR]
    exact ⟨_, rfl⟩
  | lw rt rs imm | sw rt rs imm | beq rs rt imm =>
    rw [encode, opcode_encodeI]
    exact ⟨_, rfl⟩
  | j imm26 =>
    rw [encode, opcode_encodeJ]
    exact ⟨_, rfl⟩

/-- Settles O55: the five columns by evaluation, and no test succeeds for another opcode. -/
theorem mainControlTable : Obligations.MainControlTable := by
  refine ⟨rfl, rfl, rfl, rfl, rfl, fun opcode h => ?_⟩
  simp only [List.mem_cons, List.not_mem_nil, or_false, not_or] at h
  obtain ⟨hr, hlw, hsw, hbeq, hj⟩ := h
  rw [mainControl, if_neg hr, if_neg hlw, if_neg hsw, if_neg hbeq, if_neg hj]

/-! ## The read ports (R121) -/

section
variable (s : State)

/-- A port that counts is the register read, with its fault (R121). -/
theorem State.readPort_true (i : RegNum) : s.readPort true i = s.readReg i := by
  unfold State.readPort
  cases s.readReg i <;> rfl

/-- A port that counts for nothing raises no fault (R121). -/
theorem State.readPort_false (i : RegNum) : ∃ v, s.readPort false i = .ok v := by
  unfold State.readPort
  cases s.readReg i with
  | ok v => exact ⟨v, rfl⟩
  | error f => exact ⟨_, rfl⟩

end

/-! ## One cycle of each class (R118) -/

/-- What a cycle does once the ports carry `rd1` and `rd2`: the ALU, the data memory, the writes and the next pc
(R118). -/
def cycleAfterReads (c : Control Bool) (w : Word) (s : State) (rd1 rd2 : Word) : StepResult :=
  let r := aluResult (aluControl c.aluOp1 c.aluOp0 (Word.funct w)) rd1 (mux c.aluSrc rd2 (sext32 (Word.imm w)))
  match s.readData c.memRead r with
  | .error f => .fault f
  | .ok mdata =>
    match s.writeData c.memWrite r rd2 with
    | .error f => .fault f
    | .ok s1 =>
      let s2 :=
        if c.regWrite then s1.writeReg (mux c.regDst (Word.rt w) (Word.rd w)) (mux c.memToReg r mdata) else s1
      .next (s2.setPc (nextPc c w s.pc (aluZero r)))

section
variable {c : Control Bool} (w : Word) (s : State)

/-- Two ports that count are two source reads, in that order (R121). -/
theorem datapathCycle_of_both_ports (h1 : c.port1Counts = true) (h2 : c.port2Counts = true) :
    datapathCycle c w s =
      s.withReg (Word.rs w) fun a => s.withReg (Word.rt w) fun b => cycleAfterReads c w s a b := by
  rw [datapathCycle, h1, h2, State.readPort_true, State.readPort_true]
  cases hrs : s.readReg (Word.rs w) with
  | error f => rw [State.withReg_of_error hrs]
  | ok a =>
    rw [State.withReg_of_ok hrs]
    cases hrt : s.readReg (Word.rt w) with
    | error f => rw [State.withReg_of_error hrt]
    | ok b => rw [State.withReg_of_ok hrt]; rfl

/-- Where the first port alone counts, the second carries some value (R121). -/
theorem datapathCycle_of_first_port (h1 : c.port1Counts = true) (h2 : c.port2Counts = false) :
    ∃ idle, datapathCycle c w s = s.withReg (Word.rs w) fun a => cycleAfterReads c w s a idle := by
  obtain ⟨idle, hidle⟩ := s.readPort_false (Word.rt w)
  refine ⟨idle, ?_⟩
  rw [datapathCycle, h1, h2, State.readPort_true, hidle]
  cases hrs : s.readReg (Word.rs w) with
  | error f => rw [State.withReg_of_error hrs]
  | ok a => rw [State.withReg_of_ok hrs]; rfl

/-- Where no port counts, both carry some value and neither faults (R121). -/
theorem datapathCycle_of_no_port (h1 : c.port1Counts = false) (h2 : c.port2Counts = false) :
    ∃ idle1 idle2, datapathCycle c w s = cycleAfterReads c w s idle1 idle2 := by
  obtain ⟨idle1, hidle1⟩ := s.readPort_false (Word.rs w)
  obtain ⟨idle2, hidle2⟩ := s.readPort_false (Word.rt w)
  refine ⟨idle1, idle2, ?_⟩
  rw [datapathCycle, h1, h2, hidle1, hidle2]
  rfl

end

theorem aluResult_address (w a : Word) (imm : Imm16) :
    aluResult (aluControl false false (Word.funct w)) a (sext32 imm) = effectiveAddress a imm := by
  rw [aluControl_address, aluResult_add, effectiveAddress]

theorem aluResult_branch (w a b : Word) : aluResult (aluControl false true (Word.funct w)) a b = a - b := by
  rw [aluControl_branch, aluResult_sub]

section
variable {c : Control Signal} (filling : Control Bool) (w : Word) (s : State)

/-- The R-format class: the ALU result of the two sources goes to rd, and nothing checks for overflow (R119). -/
theorem datapathCycle_rFormat (hc : mainControl 0b000000#6 = some c) :
    datapathCycle (c.wires filling) w s =
      s.rFormat (Word.rd w) (Word.rs w) (Word.rt w) (fun _ _ => false)
        (aluResult (aluControl true false (Word.funct w))) := by
  cases hc
  rw [datapathCycle_of_both_ports w s rfl rfl, State.rFormat]
  simp only [Bool.false_eq_true, and_false, if_false]
  rfl

/-- `lw`: the ALU adds up the address, and the data word goes to rt. -/
theorem datapathCycle_lw (hc : mainControl 0b100011#6 = some c) :
    datapathCycle (c.wires filling) w s = execLw (Word.rt w) (Word.rs w) (Word.imm w) s := by
  obtain ⟨idle, hcycle⟩ :=
    datapathCycle_of_first_port (c := c.wires filling) w s (by cases hc; rfl) (by cases hc; rfl)
  cases hc
  rw [hcycle, execLw]
  refine congrArg (s.withReg _) (funext fun base => ?_)
  rw [← aluResult_address w]
  rfl

/-- `sw`: the ALU adds up the address, and the second source is stored there. -/
theorem datapathCycle_sw (hc : mainControl 0b101011#6 = some c) :
    datapathCycle (c.wires filling) w s = execSw (Word.rt w) (Word.rs w) (Word.imm w) s := by
  cases hc
  rw [datapathCycle_of_both_ports w s rfl rfl, execSw]
  refine congrArg (s.withReg _) (funext fun base => congrArg (s.withReg _) (funext fun v => ?_))
  rw [← aluResult_address w]
  rfl

/-- `beq`: the ALU subtracts, and Zero selects the next pc. -/
theorem datapathCycle_beq (hc : mainControl 0b000100#6 = some c) :
    datapathCycle (c.wires filling) w s = execBeq (Word.rs w) (Word.rt w) (Word.imm w) s := by
  cases hc
  rw [datapathCycle_of_both_ports w s rfl rfl, execBeq]
  refine congrArg (s.withReg _) (funext fun a => congrArg (s.withReg _) (funext fun b => ?_))
  rw [← aluResult_branch w]
  rfl

/-- `j`: the jump address goes to the pc, and no other output reaches a state element. -/
theorem datapathCycle_j (hc : mainControl 0b000010#6 = some c) :
    datapathCycle (c.wires filling) w s = execJ (Word.imm26 w) s := by
  obtain ⟨idle1, idle2, hcycle⟩ :=
    datapathCycle_of_no_port (c := c.wires filling) w s (by cases hc; rfl) (by cases hc; rfl)
  cases hc
  rw [hcycle]
  rfl

end

/-! ## The two levels (R119) -/

/-- What the datapath does for an instruction: its own rule, but no overflow stops the R-format class (R119). -/
def execWrapping (i : Instr) (s : State) : StepResult :=
  match i with
  | .add rd rs rt => s.rFormat rd rs rt (fun _ _ => false) fun a b => a + b
  | .sub rd rs rt => s.rFormat rd rs rt (fun _ _ => false) fun a b => a - b
  | i => exec i s

theorem State.rFormat_of_wrap {s : State} (h : s.cfg.overflow = .wrap) (rd rs rt : RegNum)
    (ov : Word → Word → Bool) (g : Word → Word → Word) :
    s.rFormat rd rs rt ov g = s.rFormat rd rs rt (fun _ _ => false) g := by
  simp [State.rFormat, h]

/-- `OVERFLOW_POLICY` = `wrap` is the one the datapath has. -/
theorem execWrapping_eq_exec {s : State} (h : s.cfg.overflow = .wrap) (i : Instr) : execWrapping i s = exec i s := by
  cases i with
  | add rd rs rt => exact (State.rFormat_of_wrap h rd rs rt _ _).symm
  | sub rd rs rt => exact (State.rFormat_of_wrap h rd rs rt _ _).symm
  | _ => rfl

/-- The cycle of an instruction's word is the instruction, whatever the don't-cares carry. -/
theorem datapathCycle_encode (filling : Control Bool) {i : Instr} {c : Control Signal}
    (hc : mainControl (Word.opcode (encode i)) = some c) (s : State) :
    datapathCycle (c.wires filling) (encode i) s = execWrapping i s := by
  cases i with
  | add rd rs rt | sub rd rs rt | and rd rs rt | or rd rs rt | slt rd rs rt =>
    rw [encode, opcode_encodeR] at hc
    rw [encode, datapathCycle_rFormat _ _ _ hc, rd_encodeR, rs_encodeR, rt_encodeR, funct_encodeR]
    rfl
  | lw rt rs imm =>
    rw [encode, opcode_encodeI] at hc
    rw [encode, datapathCycle_lw _ _ _ hc, rt_encodeI, rs_encodeI, imm_encodeI]
    rfl
  | sw rt rs imm =>
    rw [encode, opcode_encodeI] at hc
    rw [encode, datapathCycle_sw _ _ _ hc, rt_encodeI, rs_encodeI, imm_encodeI]
    rfl
  | beq rs rt imm =>
    rw [encode, opcode_encodeI] at hc
    rw [encode, datapathCycle_beq _ _ _ hc, rt_encodeI, rs_encodeI, imm_encodeI]
    rfl
  | j imm26 =>
    rw [encode, opcode_encodeJ] at hc
    rw [encode, datapathCycle_j _ _ _ hc, imm26_encodeJ]
    rfl

/-- The step with `execWrapping` for the meaning of the instruction. -/
def stepWrapping (s : State) : StepResult :=
  match s.cycleInstr with
  | .next i    => execWrapping i s
  | .fault f   => .fault f
  | .refused r => .refused r

/-- The don't-cares do not occur in what the datapath does (R103). -/
theorem datapathStep_eq_stepWrapping (filling : Control Bool) (s : State) :
    datapathStep filling s = stepWrapping s := by
  unfold datapathStep stepWrapping State.cycleInstr
  cases s.cycleWord with
  | fault f => rfl
  | refused r => rfl
  | next w =>
    cases hd : decode w with
    | error e => simp only [hd]
    | ok i =>
      obtain rfl : encode i = w := encodeOfDecode w i hd
      obtain ⟨c, hc⟩ := exists_mainControl_encode i
      simp only [hd, hc, datapathCycle_encode filling hc]

theorem stepWrapping_eq_step {s : State} (h : s.cfg.overflow = .wrap) : stepWrapping s = step s := by
  unfold stepWrapping step
  cases s.cycleInstr with
  | next i => exact execWrapping_eq_exec h i
  | fault f => rfl
  | refused r => rfl

/-- Settles O53: for either filling the datapath does the same wrapping step. -/
theorem dontCaresHaveNoEffect : Obligations.DontCaresHaveNoEffect := fun filling filling' s =>
  (datapathStep_eq_stepWrapping filling s).trans (datapathStep_eq_stepWrapping filling' s).symm

/-- Settles O52: the datapath does the wrapping step, which is the step under `OVERFLOW_POLICY` = `wrap`. -/
theorem datapathAgreesWithInstructions : Obligations.DatapathAgreesWithInstructions := fun filling s h =>
  (datapathStep_eq_stepWrapping filling s).trans (stepWrapping_eq_step h)

end Sys2Proof.Machine
end

section
/-! PROOFS. The faults (60_exceptions.md R131): O29, O38, O39, O40, when each fault of execution is raised; O57, what
stops under ordinary data; O5, O9, the faults before execution; O41, their order; O10, the end of a run; O12, the fault
record. -/

namespace Sys2Proof.Machine

/-! ## Why an instruction faults -/

/-- In `s` instruction `i` is a `lw` or `sw` whose sources can be read and whose address is `a` (41_load_store.md
R80). -/
def AccessesData (i : Instr) (s : State) (a : Word) : Prop :=
  ∃ rt rs imm base, s.readReg rs = .ok base ∧ a = base + imm.signExtend 32 ∧
    (i = .lw rt rs imm ∨ (i = .sw rt rs imm ∧ ∃ v, s.readReg rt = .ok v))

/-- The condition of the spec behind each fault of execution, with what the fault records (60_exceptions.md R133, R134,
R136, R137). -/
inductive FaultCause (i : Instr) (s : State) : Fault → Prop where
  | unwritten {r : RegNum} (hr : r ∈ Instr.reads i) (hun : s.Unreadable r) : FaultCause i s (.unwrittenRegister r)
  | overflow {rd rs rt : RegNum} {a b : Word} (hpol : s.cfg.overflow = .fault) (ha : s.readReg rs = .ok a)
      (hb : s.readReg rt = .ok b)
      (hi : (i = .add rd rs rt ∧ SumUnrepresentable a b) ∨ (i = .sub rd rs rt ∧ DifferenceUnrepresentable a b)) :
      FaultCause i s (.arithmeticOverflow s.pc)
  | misaligned {a : Word} (hi : AccessesData i s a) (ha : isAligned a = false) :
      FaultCause i s (.misalignedDataAddress s.pc a)
  | outside {a : Word} (hi : AccessesData i s a) (ha : isAligned a = true) (hd : s.inDmemDomain a = false) :
      FaultCause i s (.dataAccessFault s.pc a)
  | uninitialised {rt rs : RegNum} {imm : Imm16} {base a : Word} (hi : i = .lw rt rs imm)
      (hb : s.readReg rs = .ok base) (haddr : a = base + imm.signExtend 32) (ha : isAligned a = true)
      (hd : s.inDmemDomain a = true) (hn : s.dmem.readWord s.cfg.byteOrder a = none)
      (hpol : s.cfg.unwritten = .fault) : FaultCause i s (.uninitialisedMemory s.pc a)

section
variable {i : Instr} {s : State} {f : Fault}

theorem FaultCause.of_readReg {r : RegNum} (hr : r ∈ Instr.reads i) (h : s.readReg r = .error f) :
    FaultCause i s f := by
  obtain ⟨hmark, hpol, rfl⟩ := State.readReg_eq_error.1 h
  exact .unwritten hr ⟨hmark, hpol⟩

theorem FaultCause.of_dataAddressFault {a : Word} (hi : AccessesData i s a) (h : s.dataAddressFault a = some f) :
    FaultCause i s f := by
  rcases State.dataAddressFault_eq_some.1 h with ⟨ha, rfl⟩ | ⟨ha, hd, rfl⟩
  · exact .misaligned hi ha
  · exact .outside hi ha hd

theorem FaultCause.of_memRead {rt rs : RegNum} {imm : Imm16} {base : Word} (hi : i = .lw rt rs imm)
    (hb : s.readReg rs = .ok base) (h : s.memRead (effectiveAddress base imm) = .error f) : FaultCause i s f := by
  rcases State.memRead_eq_error.1 h with h | ⟨hnone, hn, hpol, rfl⟩
  · exact .of_dataAddressFault ⟨rt, rs, imm, base, hb, rfl, .inl hi⟩ h
  · obtain ⟨ha, hd⟩ := State.dataAddressFault_eq_none.1 hnone
    exact .uninitialised hi hb rfl ha hd hn hpol

/-- An R-format instruction faults at a source, or by an overflow, which its condition `ov` has to account for. -/
theorem FaultCause.of_rFormat {rd rs rt : RegNum} {ov : Word → Word → Bool} {g : Word → Word → Word}
    (hi : Instr.reads i = [rs, rt])
    (hov : ∀ a b, ov a b = true →
      (i = .add rd rs rt ∧ SumUnrepresentable a b) ∨ (i = .sub rd rs rt ∧ DifferenceUnrepresentable a b))
    (h : s.rFormat rd rs rt ov g = .fault f) : FaultCause i s f := by
  rcases State.rFormat_eq_fault.1 h with h | ⟨a, ha, h | ⟨b, hb, hpol, hover, rfl⟩⟩
  · exact .of_readReg (by simp [hi]) h
  · exact .of_readReg (by simp [hi]) h
  · exact .overflow hpol ha hb (hov a b hover)

/-- Every fault of an instruction has its cause. -/
theorem faultCause_of_exec (h : exec i s = .fault f) : FaultCause i s f := by
  cases i with
  | add rd rs rt => exact .of_rFormat rfl (fun a b hov => .inl ⟨rfl, (addOverflows_iff a b).1 hov⟩) h
  | sub rd rs rt => exact .of_rFormat rfl (fun a b hov => .inr ⟨rfl, (subOverflows_iff a b).1 hov⟩) h
  | and rd rs rt | or rd rs rt | slt rd rs rt => exact .of_rFormat (rd := rd) rfl (by simp) h
  | lw rt rs imm =>
    rcases execLw_eq_fault.1 h with h | ⟨base, hb, h⟩
    · exact .of_readReg (by simp [Instr.reads]) h
    · exact .of_memRead rfl hb h
  | sw rt rs imm =>
    rcases execSw_eq_fault.1 h with h | ⟨base, hb, h | ⟨v, hv, h⟩⟩
    · exact .of_readReg (by simp [Instr.reads]) h
    · exact .of_readReg (by simp [Instr.reads]) h
    · exact .of_dataAddressFault ⟨rt, rs, imm, base, hb, rfl, .inr ⟨rfl, v, hv⟩⟩ h
  | beq rs rt imm =>
    rcases execBeq_eq_fault.1 h with h | ⟨a, -, h⟩
    · exact .of_readReg (by simp [Instr.reads]) h
    · exact .of_readReg (by simp [Instr.reads]) h
  | j imm26 => cases h

/-- A `lw` or `sw` with readable sources reports what the address checks find (60_exceptions.md R133, R134). -/
theorem exec_of_dataAddressFault {a : Word} (hi : AccessesData i s a) (h : s.dataAddressFault a = some f) :
    exec i s = .fault f := by
  obtain ⟨rt, rs, imm, base, hb, rfl, rfl | ⟨rfl, v, hv⟩⟩ := hi
  · exact execLw_of_memRead_error hb (State.memRead_eq_error.2 (.inl h))
  · exact execSw_of_dataAddressFault hb hv h

end

/-- Settles O29: the one cause of this fault. -/
theorem overflowFaultOnlyAddSub : Obligations.OverflowFaultOnlyAddSub := by
  intro i s p h
  cases faultCause_of_exec h with
  | overflow hpol ha hb hi => exact ⟨rfl, hpol, _, _, _, _, _, ha, hb, hi⟩

/-! ## The faults of an address -/

/-- `a[1:0] = 00` says that `a` is a multiple of 4. -/
theorem extract_low_eq_zero_iff (a : Word) : a.extractLsb' 0 2 = 0#2 ↔ isAligned a = true := by
  rw [isAligned_iff, BitVec.toNat_eq, BitVec.extractLsb'_toNat]
  simp

/-- Settles O38: the one cause of this fault, and the first of the address checks. -/
theorem misalignedDataAddressExactly : Obligations.MisalignedDataAddressExactly := by
  intro s i p a
  rw [ne_eq, extract_low_eq_zero_iff, Bool.not_eq_true]
  constructor
  · intro h
    cases faultCause_of_exec h with
    | misaligned hi ha => exact ⟨rfl, ha, hi⟩
  · rintro ⟨rfl, ha, hi⟩
    exact exec_of_dataAddressFault hi (State.dataAddressFault_eq_some.2 (.inl ⟨ha, rfl⟩))

/-- The domain of all aligned addresses (20_memory.md R36). -/
theorem State.inDmemDomain_of_full {s : State} {a : Word} (hs : s.cfg.dmemDomain = [⟨0, 2 ^ 30⟩])
    (ha : a.toNat % 4 = 0) : s.inDmemDomain a = true := by
  have hlt := a.isLt
  simp only [State.inDmemDomain, hs, List.any_cons, List.any_nil, regionHolds, Bool.or_false, Bool.and_eq_true,
    decide_eq_true_eq]
  omega

/-- Settles O39: the one cause of this fault, and the second of the address checks, which the full domain passes. -/
theorem dataAccessFaultExactly : Obligations.DataAccessFaultExactly := by
  refine ⟨fun s i p a => ⟨fun h => ?_, ?_⟩, fun s i p a hfull h => ?_⟩
  · cases faultCause_of_exec h with
    | outside hi ha hd => exact ⟨rfl, isAligned_iff.1 ha, hd, hi⟩
  · rintro ⟨rfl, ha, hd, hi⟩
    exact exec_of_dataAddressFault hi (State.dataAddressFault_of_outside ha hd)
  · cases faultCause_of_exec h with
    | outside hi ha hd => simp [State.inDmemDomain_of_full hfull (isAligned_iff.1 ha)] at hd

/-! ## Values nothing has written -/

section
variable {i : Instr} {s : State} {r r' : RegNum}

theorem State.readReg_ok_of_not_unreadable (h : ¬ s.Unreadable r) : ∃ v, s.readReg r = .ok v := by
  cases hr : s.readReg r with
  | ok v => exact ⟨v, rfl⟩
  | error f =>
    obtain ⟨hmark, hpol, -⟩ := State.readReg_eq_error.1 hr
    exact absurd ⟨hmark, hpol⟩ h

/-- The first source of every instruction is read first (60_exceptions.md R142). -/
theorem exec_of_unreadable_first {rest : List RegNum} (hi : Instr.reads i = r :: rest) (h : s.Unreadable r) :
    exec i s = .fault (.unwrittenRegister r) := by
  cases i with
  | add rd rs rt | sub rd rs rt | and rd rs rt | or rd rs rt | slt rd rs rt =>
    cases hi; exact State.rFormat_of_unreadable_first h
  | lw rt rs imm => cases hi; exact execLw_of_unreadable h
  | sw rt rs imm => cases hi; exact execSw_of_unreadable_base h
  | beq rs rt imm => cases hi; exact execBeq_of_unreadable_first h
  | j imm26 => cases hi

/-- The second source is read next, before any other check (60_exceptions.md R142). -/
theorem exec_of_unreadable_second (hi : Instr.reads i = [r, r']) (h : ¬ s.Unreadable r) (h' : s.Unreadable r') :
    exec i s = .fault (.unwrittenRegister r') := by
  obtain ⟨v, hv⟩ := State.readReg_ok_of_not_unreadable h
  cases i with
  | add rd rs rt | sub rd rs rt | and rd rs rt | or rd rs rt | slt rd rs rt =>
    cases hi; exact State.rFormat_of_unreadable_second hv h'
  | lw rt rs imm => cases hi
  | sw rt rs imm => cases hi; exact execSw_of_unreadable_stored hv h'
  | beq rs rt imm => cases hi; exact execBeq_of_unreadable_second hv h'
  | j imm26 => cases hi

/-- An instruction reads no register, one, or two. -/
theorem Instr.reads_cases (i : Instr) :
    Instr.reads i = [] ∨ (∃ r, Instr.reads i = [r]) ∨ ∃ r r', Instr.reads i = [r, r'] := by
  cases i with
  | j imm26 => exact .inl rfl
  | lw rt rs imm => exact .inr (.inl ⟨rs, rfl⟩)
  | _ => exact .inr (.inr ⟨_, _, rfl⟩)

/-- An instruction that reads an unreadable register stops at the first one it reads. -/
theorem exec_of_unreadable (h : s.Unreadable r) (hr : r ∈ Instr.reads i) :
    ∃ r', exec i s = .fault (.unwrittenRegister r') ∧ r' ∈ Instr.reads i := by
  rcases Instr.reads_cases i with hi | ⟨r₁, hi⟩ | ⟨r₁, r₂, hi⟩
  · simp [hi] at hr
  · obtain rfl : r = r₁ := by simpa [hi] using hr
    exact ⟨r, exec_of_unreadable_first hi h, hr⟩
  · by_cases h₁ : s.Unreadable r₁
    · exact ⟨r₁, exec_of_unreadable_first hi h₁, by simp [hi]⟩
    · have hr₂ : r = r₁ ∨ r = r₂ := by simpa [hi] using hr
      obtain rfl : r = r₂ := hr₂.resolve_left fun e => h₁ (e ▸ h)
      exact ⟨r, exec_of_unreadable_second hi h₁ h, hr⟩

end

/-- Settles O40: the causes of the two faults, the order of the source reads, and the last check of a load. -/
theorem unspecifiedValueFaults : Obligations.UnspecifiedValueFaults := by
  refine ⟨fun s i r h => ?_, fun s i r => exec_of_unreadable, fun s i p a => ⟨fun h => ?_, ?_⟩⟩
  · cases faultCause_of_exec h with
    | unwritten hr hun => exact ⟨hun, hr⟩
  · cases faultCause_of_exec h with
    | uninitialised hi hb haddr ha hd hn hpol =>
      exact ⟨rfl, hpol, isAligned_iff.1 ha, hd, hn, _, _, _, _, hi, hb, haddr⟩
  · rintro ⟨rfl, hpol, ha, hd, hn, rt, rs, imm, base, rfl, hb, rfl⟩
    obtain ⟨-, -, inside⟩ := memReadChecksInOrder s (base + imm.signExtend 32)
    obtain ⟨-, unlisted⟩ := inside ha hd
    obtain ⟨uninitialised, -⟩ := unlisted hn
    exact execLw_of_memRead_error hb (uninitialised hpol)

/-- Settles O57: no instruction is refused, and of the causes of a fault the hypotheses leave the misaligned address. -/
theorem ordinaryDataCompletes : Obligations.OrdinaryDataCompletes := by
  intro i s hpolicy hwrap hfull
  cases h : exec i s with
  | next t => exact .inl ⟨t, rfl⟩
  | refused r => exact absurd h (exec_ne_refused i s r)
  | fault f =>
    cases faultCause_of_exec h with
    | unwritten _ hun => exact absurd hun.2 hpolicy
    | overflow hpol => simp [hwrap] at hpol
    | misaligned hi ha =>
      obtain ⟨rt, rs, imm, base, hb, rfl, hi⟩ := hi
      exact .inr ⟨rt, rs, imm, base, hi.imp_right And.left, hb, not_isAligned_iff.1 ha, rfl⟩
    | outside _ ha hd => simp [hfull _ (isAligned_iff.1 ha)] at hd
    | uninitialised _ _ _ _ _ _ hpol => exact absurd hpol hpolicy

/-! ## The faults before execution -/

/-- No instruction raises the faults of fetch and decode (60_exceptions.md R132, R135). -/
theorem exec_fault_not_of_fetch {i : Instr} {s : State} {f : Fault} (h : exec i s = .fault f) :
    (∀ a, f ≠ .fetchFault a) ∧ ∀ p w, f ≠ .illegalInstruction p w := by
  cases faultCause_of_exec h
  all_goals exact ⟨nofun, nofun⟩

/-- A test of the decoder that answers an instruction adds its negation to the reasons why there is none. -/
theorem exists_ite_eq_error {c : Prop} [Decidable c] {i : Instr} {x : Except DecodeError Instr} :
    (∃ e, (if c then .ok i else x) = .error e) ↔ ¬ c ∧ ∃ e, x = .error e := by
  split
  · next h => simp [h]
  · next h => simp [h]

/-- A word is illegal for one of three reasons (60_exceptions.md R132). -/
theorem decode_eq_error_iff (w : Word) :
    (∃ e, decode w = .error e) ↔
      Word.opcode w ∉ [0b000000#6, 0b100011#6, 0b101011#6, 0b000100#6, 0b000010#6] ∨
      (Word.opcode w = 0b000000#6 ∧
        Word.funct w ∉ [0b100000#6, 0b100010#6, 0b100100#6, 0b100101#6, 0b101010#6]) ∨
      (Word.opcode w = 0b000000#6 ∧ Word.shamt w ≠ 0#5) := by
  unfold decode
  by_cases ho : Word.opcode w = 0b000000#6
  · by_cases hs : Word.shamt w = 0#5
    · simp only [if_pos ho, if_pos hs, exists_ite_eq_error]
      simp [ho, hs]
    · simp [ho, hs]
  · simp only [if_neg ho, exists_ite_eq_error]
    simp [ho]

/-- Settles O5: the step reports an illegal word exactly when the word does not decode. -/
theorem illegalInstructionExactly : Obligations.IllegalInstructionExactly := by
  intro s w hw
  refine Iff.trans ⟨fun h => ?_, fun ⟨e, he⟩ => step_of_decode_error hw he⟩ (decode_eq_error_iff w)
  cases hd : decode w with
  | error e => exact ⟨e, rfl⟩
  | ok i =>
    rw [step_of_decode hw hd] at h
    obtain ⟨-, hne⟩ := exec_fault_not_of_fetch h
    exact absurd rfl (hne s.pc w)

section
variable {s : State} {a : Word}

theorem State.inImemDomain_iff : s.inImemDomain a = true ↔
    a.toNat % 4 = 0 ∧ ∀ k : Fin 4, (s.imem.read (a.toNat + k.val)).isSome = true := by
  rw [State.inImemDomain, Bool.and_eq_true, isAligned_iff, Memory.readWord_isSome]
  refine and_congr_right fun ha => forall_congr' fun k => ?_
  rw [byteAddr_of_aligned (isAligned_iff.2 ha)]

/-- A fetch outside `IMEM_DOMAIN` (20_memory.md R37). -/
theorem State.iFetch_of_outside (h : s.inImemDomain a = false) : s.iFetch a = .error (.fetchFault a) := by
  unfold State.iFetch
  split
  · next ha =>
    have hn : s.imem.readWord s.cfg.byteOrder a = none := by simpa [State.inImemDomain, ha] using h
    rw [hn]
  · rfl

/-- A pc in `IMEM_DOMAIN` is fetched. -/
theorem State.cycleWord_of_inImemDomain (hc : s.cfg.admitted = true) (hf : s.fault = none) (hend : s.pc ≠ s.cfg.endPc)
    (h : s.inImemDomain s.pc = true) : ∃ w, s.cycleWord = .next w := by
  obtain ⟨ha, hsome⟩ := (Bool.and_eq_true _ _).mp h
  obtain ⟨w, hw⟩ := Option.isSome_iff_exists.1 hsome
  exact ⟨w, State.cycleWord_eq_next.2 ⟨hc, hf, hend, ha, hw⟩⟩

/-- The fetch comes before everything else of the step (60_exceptions.md R142). -/
theorem step_of_outside_imem (hc : s.cfg.admitted = true) (hf : s.fault = none) (hend : s.pc ≠ s.cfg.endPc)
    (h : s.inImemDomain s.pc = false) : step s = .fault (.fetchFault s.pc) := by
  simp [step, State.cycleInstr, State.cycleWord, State.runOver, hc, hf, hend, State.iFetch_of_outside h]

/-- A step that fetched a word raises no `FetchFault`. -/
theorem step_ne_fetchFault {w : Word} (hw : s.cycleWord = .next w) : step s ≠ .fault (.fetchFault a) := by
  intro h
  cases hd : decode w with
  | error e => rw [step_of_decode_error hw hd] at h; cases h
  | ok i =>
    rw [step_of_decode hw hd] at h
    obtain ⟨hne, -⟩ := exec_fault_not_of_fetch h
    exact hne a rfl

/-- At `END_PC` there is no step (60_exceptions.md R140). -/
theorem step_of_endPc (hc : s.cfg.admitted = true) (hf : s.fault = none) (hend : s.pc = s.cfg.endPc) :
    step s = .refused .runOver := by
  simp [step, State.cycleInstr, State.cycleWord, State.runOver, hc, hf, hend]

end

/-- Settles O9: the step refuses at `END_PC`, fetches inside `IMEM_DOMAIN`, and faults elsewhere. -/
theorem fetchFaultExactly : Obligations.FetchFaultExactly := by
  intro s hc hf
  rw [← State.inImemDomain_iff, Bool.not_eq_true]
  refine ⟨fun h => ?_, fun ⟨hend, hout⟩ => step_of_outside_imem hc hf hend hout⟩
  have hend : s.pc ≠ s.cfg.endPc := fun e => by rw [step_of_endPc hc hf e] at h; cases h
  refine ⟨hend, Bool.eq_false_iff.2 fun hin => ?_⟩
  obtain ⟨w, hw⟩ := State.cycleWord_of_inImemDomain hc hf hend hin
  exact step_ne_fetchFault hw h

/-! ## The order of the faults (60_exceptions.md R142) -/

section
variable {s : State} {f : Fault}

/-- With both sources read, an R-format instruction can only overflow. -/
theorem State.rFormat_fault_of_readable {rd rs rt : RegNum} {ov : Word → Word → Bool} {g : Word → Word → Word}
    (hrs : ¬ s.Unreadable rs) (hrt : ¬ s.Unreadable rt) (h : s.rFormat rd rs rt ov g = .fault f) :
    f = .arithmeticOverflow s.pc := by
  obtain ⟨a, ha⟩ := State.readReg_ok_of_not_unreadable hrs
  obtain ⟨b, hb⟩ := State.readReg_ok_of_not_unreadable hrt
  rcases State.rFormat_eq_fault.1 h with h | ⟨_, -, h | ⟨_, -, -, -, h⟩⟩
  · rw [ha] at h; cases h
  · rw [hb] at h; cases h
  · exact h

/-- With both sources read, a `beq` completes. -/
theorem execBeq_ne_fault_of_readable {rs rt : RegNum} {imm : Imm16} (hrs : ¬ s.Unreadable rs)
    (hrt : ¬ s.Unreadable rt) : execBeq rs rt imm s ≠ .fault f := by
  obtain ⟨a, ha⟩ := State.readReg_ok_of_not_unreadable hrs
  obtain ⟨b, hb⟩ := State.readReg_ok_of_not_unreadable hrt
  rw [execBeq_eq_next.2 ⟨a, b, ha, hb, rfl⟩]
  nofun

/-- The two address checks, in their order. -/
theorem State.dataAddressFault_order {a : Word} (h : s.dataAddressFault a = some f) :
    f = if isAligned a = false then .misalignedDataAddress s.pc a else .dataAccessFault s.pc a := by
  rcases State.dataAddressFault_eq_some.1 h with ⟨ha, hf⟩ | ⟨ha, -, hf⟩
  · simp [ha, hf]
  · simp [ha, hf]

/-- The three checks of a data read, in their order. -/
theorem State.memRead_error_order {a : Word} (h : s.memRead a = .error f) :
    f = if isAligned a = false then .misalignedDataAddress s.pc a
      else if s.inDmemDomain a = false then .dataAccessFault s.pc a else .uninitialisedMemory s.pc a := by
  rcases State.memRead_eq_error.1 h with h | ⟨hnone, -, -, hf⟩
  · rcases State.dataAddressFault_eq_some.1 h with ⟨ha, hf⟩ | ⟨ha, hd, hf⟩
    · simp [ha, hf]
    · simp [ha, hd, hf]
  · obtain ⟨ha, hd⟩ := State.dataAddressFault_eq_none.1 hnone
    simp [ha, hd, hf]

end

/-- Settles O41: fetch and decode before execution, the sources in their order, then the checks of each
instruction. -/
theorem faultPriority : Obligations.FaultPriority := by
  refine fun s => ⟨step_of_outside_imem, fun w e => step_of_decode_error, fun rd rs rt i hi => ?_,
    fun rs rt imm => ⟨exec_of_unreadable_first rfl, exec_of_unreadable_second rfl,
      fun hrs hrt f => execBeq_ne_fault_of_readable hrs hrt⟩,
    fun rt rs imm => ⟨exec_of_unreadable_first rfl, fun base hb f h => ?_⟩,
    fun rt rs imm => ⟨exec_of_unreadable_first rfl, exec_of_unreadable_second rfl, fun base v hb hv f h => ?_⟩,
    fun imm26 f => nofun⟩
  · simp only [List.mem_cons, List.not_mem_nil, or_false] at hi
    rcases hi with rfl | rfl | rfl | rfl | rfl
    all_goals exact ⟨exec_of_unreadable_first rfl, exec_of_unreadable_second rfl,
      fun hrs hrt f => State.rFormat_fault_of_readable hrs hrt⟩
  · rcases execLw_eq_fault.1 h with h | ⟨base', hb', h⟩
    · rw [hb] at h; cases h
    · obtain rfl : base = base' := Except.ok.inj (hb.symm.trans hb')
      exact State.memRead_error_order h
  · rcases execSw_eq_fault.1 h with h | ⟨base', hb', h | ⟨_, -, h⟩⟩
    · rw [hb] at h; cases h
    · rw [hv] at h; cases h
    · obtain rfl : base = base' := Except.ok.inj (hb.symm.trans hb')
      exact State.dataAddressFault_order h

/-! ## The end of a run and the fault record (60_exceptions.md R131, R140, R141) -/

section
variable {s : State} {f g : Fault}

/-- A state that a cycle leaves as it is stays for any number of cycles. -/
theorem State.cycles_of_cycle_self (h : s.cycle = s) (n : Nat) : State.cycles n s = s :=
  State.cycles_induction (P := fun t => t = s) (fun t ht => by rw [ht, h]) n rfl

theorem State.cycle_of_fault (h : step s = .fault f) : s.cycle = s.recordFault f := by
  simp [State.cycle, h]

/-- A state with a record answers it again, if its configuration is admitted (log entry 2). -/
theorem step_of_recorded (hg : s.fault = some g) :
    step s = .fault g ∨ step s = .refused .configNotAdmitted := by
  cases hc : s.cfg.admitted with
  | true => exact .inl (by simp [step, State.cycleInstr, State.cycleWord, hc, hg])
  | false => exact .inr (by simp [step, State.cycleInstr, State.cycleWord, hc])

/-- No cycle changes a state with a record. -/
theorem State.cycle_of_recorded (hg : s.fault = some g) : s.cycle = s := by
  rcases step_of_recorded hg with h | h
  · rw [State.cycle_of_fault h, State.recordFault_of_some s g g hg]
  · simp [State.cycle, h]

/-- After the cycle of a fault there is a record. -/
theorem State.recordFault_recorded (s : State) (f : Fault) : ∃ g, (s.recordFault f).fault = some g := by
  cases h : s.fault with
  | none => exact ⟨f, State.recordFault_of_none s f h⟩
  | some g => exact ⟨g, by rw [State.recordFault_of_some s f g h, h]⟩

end

/-- Settles O10: without a step a cycle leaves the state as it is. -/
theorem noStepAtEndPc : Obligations.NoStepAtEndPc := by
  intro s hc hf hend
  have hstep := step_of_endPc hc hf hend
  exact ⟨hstep, State.cycles_of_cycle_self (by simp [State.cycle, hstep])⟩

/-- Settles O12: the cycle of a fault writes the record if there is none, and a state with a record never changes. -/
theorem faultIsRecordedForever : Obligations.FaultIsRecordedForever := by
  intro s f h
  refine ⟨fun hn => ?_, fun g hg => ⟨?_, State.cycle_of_recorded hg⟩, fun n => ?_⟩
  · rw [State.cycle_of_fault h, State.recordFault, hn]
  · rcases step_of_recorded hg with hs | hs
    · cases h.symm.trans hs; rfl
    · cases h.symm.trans hs
  · obtain ⟨g, hg⟩ := s.recordFault_recorded f
    rw [← State.cycle_of_fault h] at hg
    have stays := State.cycles_of_cycle_self (State.cycle_of_recorded hg) n
    exact ⟨stays, by simp [stays, State.runOver, hg]⟩

end Sys2Proof.Machine
end

section
/-! PROOFS. The host's loads (70_reset_and_hazards.md R153) and the times of the classes (R162): O8, the loaded word is
run; O16, an image reads back; O58, the total times. -/

namespace Sys2Proof.Machine

/-! ## One word loaded at the pc -/

theorem State.withFetchWord_word (s : State) (w : Word) : s.withFetchWord 32 w.toNat = s.loadAtPc w := by
  rw [State.withFetchWord, Nat.mod_eq_of_lt w.isLt, BitVec.ofNat_toNat, BitVec.setWidth_eq]

/-- A loaded word never stands on `END_PC`, which the load moves behind it (log entry 1). -/
theorem State.loadAtPc_pc_ne_endPc (s : State) (w : Word) : (s.loadAtPc w).pc ≠ (s.loadAtPc w).cfg.endPc := by
  rw [State.loadAtPc_pc, State.loadAtPc_endPc]
  split
  · unfold pcPlus4
    bv_omega
  · next h => exact Ne.symm h

/-- The moved `END_PC` is a multiple of 4 again, so that the configuration stays admitted. -/
theorem State.loadAtPc_admitted {s : State} (hc : s.cfg.admitted = true) (ha : isAligned s.pc = true) (w : Word) :
    (s.loadAtPc w).cfg.admitted = true := by
  simp only [Config.admitted, Bool.and_eq_true, decide_eq_true_eq] at hc ⊢
  obtain ⟨⟨hreset, hend⟩, hdomain⟩ := hc
  refine ⟨⟨hreset, ?_⟩, hdomain⟩
  rw [State.loadAtPc_endPc]
  split
  · exact isAligned_iff.1 (isAligned_pcPlus4 ha)
  · exact hend

/-- The cycle after a load fetches the loaded word. -/
theorem State.cycleWord_loadAtPc {s : State} (hc : s.cfg.admitted = true) (ha : isAligned s.pc = true) (w : Word) :
    (s.loadAtPc w).cycleWord = .next w :=
  State.cycleWord_eq_next.2 ⟨State.loadAtPc_admitted hc ha w, State.loadAtPc_fault .., s.loadAtPc_pc_ne_endPc w, ha,
    Memory.readWord_writeWord_same ..⟩

/-- Settles O8: the cycle after the load fetches the word, and the load writes the four bytes at the pc only. -/
theorem loadedWordIsRun : Obligations.LoadedWordIsRun := by
  intro s w hc hpc
  have ha : isAligned s.pc = true := isAligned_iff.2 hpc
  have hw := State.cycleWord_loadAtPc hc ha w
  rw [State.withFetchWord_word]
  refine ⟨?_, rfl, rfl, rfl, rfl, fun a hout => ?_⟩
  · cases hd : decode w with
    | ok i => exact step_of_decode hw hd
    | error e => exact step_of_decode_error hw hd
  · exact Memory.read_writeWord_other _ _ _ _ fun k => byteAddr_of_aligned ha k ▸ hout k

/-! ## An image of words -/

section
variable {order : ByteOrder} {image : List (Word × Word)}

/-- The last word of an image is written last. -/
theorem Memory.ofWords_concat (order : ByteOrder) (image : List (Word × Word)) (aw : Word × Word) :
    Memory.ofWords order (image ++ [aw]) = (Memory.ofWords order image).writeWord order aw.1 aw.2 := by
  simp [Memory.ofWords]

/-- A byte that belongs to no word of the image is not listed. -/
theorem Memory.read_ofWords_outside {a : Nat} (h : ∀ aw ∈ image, ∀ k, a ≠ byteAddr aw.1 k) :
    (Memory.ofWords order image).read a = none := by
  induction image using List.reverseRecOn with
  | nil => rfl
  | append_singleton image last ih =>
    obtain ⟨himage, hlast⟩ := List.forall_mem_append.1 h
    rw [Memory.ofWords_concat, Memory.read_writeWord_other _ _ _ _ (hlast last (List.mem_singleton_self _)), ih himage]

/-- A word of an image at distinct aligned addresses survives the words written after it. -/
theorem Memory.readWord_ofWords (hdistinct : (image.map Prod.fst).Nodup)
    (haligned : ∀ aw ∈ image, isAligned aw.1 = true) :
    ∀ aw ∈ image, (Memory.ofWords order image).readWord order aw.1 = some aw.2 := by
  induction image using List.reverseRecOn with
  | nil => exact fun _ h => (List.not_mem_nil h).elim
  | append_singleton image last ih =>
    rw [List.map_append, List.map_singleton, List.nodup_append] at hdistinct
    obtain ⟨hnodup, -, hne⟩ := hdistinct
    obtain ⟨himage, hlast⟩ := List.forall_mem_append.1 haligned
    rw [Memory.ofWords_concat]
    refine List.forall_mem_append.2 ⟨fun aw h => ?_, List.forall_mem_singleton.2 (Memory.readWord_writeWord_same ..)⟩
    rw [Memory.readWord_writeWord_other _ _ _ _ (hlast last (List.mem_singleton_self _)) (himage aw h)
      (hne _ (List.mem_map_of_mem h) _ (List.mem_singleton_self _)), ih hnodup himage aw h]

end

/-- Settles O16: by induction on the image from its last word, which shares no byte with the words before it. -/
theorem hostImageReadsBack : Obligations.HostImageReadsBack := by
  intro order image hdistinct hmod
  have haligned : ∀ aw ∈ image, isAligned aw.1 = true := fun aw h => isAligned_iff.2 (hmod aw h)
  refine ⟨Memory.readWord_ofWords hdistinct haligned, fun a hout => Memory.read_ofWords_outside fun aw h k => ?_⟩
  rw [byteAddr_of_aligned (haligned aw h)]
  exact hout aw h k

/-! ## The times of the classes (R162) -/

/-- Row by row of R162; the source gives `j` no row. -/
theorem totalTime_le_minimumClockPeriod {i : Instr} {ps : Nat} (h : totalTime i = some ps) :
    ps ≤ minimumClockPeriod := by
  cases i with
  | j => cases h
  | _ => cases h; decide

/-- Settles O58: each total is the sum of its row of R162. -/
theorem criticalPathTimes : Obligations.CriticalPathTimes :=
  ⟨fun _ _ _ => ⟨rfl, rfl, rfl⟩, fun _ _ _ => ⟨rfl, rfl, rfl, rfl, rfl⟩,
    fun _ _ => totalTime_le_minimumClockPeriod, fun _ _ _ => rfl⟩

end Sys2Proof.Machine
end

section
/-! PROOFS. O1, the words of 95_test_vectors.md 2.1 and the reasons of 30_encoding.md R59; O11, the configurations that
are refused (93_implementation_defined.md U16). -/

namespace Sys2Proof

/-! ## Why a word is no instruction (30_encoding.md R59, R60) -/

section
variable {w : Word}

theorem decode_of_unknownOpcode
    (ho : Word.opcode w ∉ [0b000000#6, 0b100011#6, 0b101011#6, 0b000100#6, 0b000010#6]) :
    decode w = .error (.unknownOpcode (Word.opcode w)) := by
  simp only [List.mem_cons, List.not_mem_nil, or_false, not_or] at ho
  obtain ⟨hr, hlw, hsw, hbeq, hj⟩ := ho
  rw [decode, if_neg hr, if_neg hlw, if_neg hsw, if_neg hbeq, if_neg hj]

theorem decode_of_shamtNotZero (ho : Word.opcode w = 0b000000#6) (hs : Word.shamt w ≠ 0#5) :
    decode w = .error (.shamtNotZero (Word.shamt w)) := by
  rw [decode, if_pos ho, if_neg hs]

theorem decode_of_unknownFunct (ho : Word.opcode w = 0b000000#6) (hs : Word.shamt w = 0#5)
    (hf : Word.funct w ∉ [0b100000#6, 0b100010#6, 0b100100#6, 0b100101#6, 0b101010#6]) :
    decode w = .error (.unknownFunct (Word.funct w)) := by
  simp only [List.mem_cons, List.not_mem_nil, or_false, not_or] at hf
  obtain ⟨hadd, hsub, hand, hor, hslt⟩ := hf
  rw [decode, if_pos ho, if_pos hs, if_neg hadd, if_neg hsub, if_neg hand, if_neg hor, if_neg hslt]

end

/-- Settles O1: a legal word is the encoding of its instruction, an illegal one meets the condition of its reason. -/
theorem decodesSpecWords : Obligations.DecodesSpecWords :=
  ⟨decode_of_encode_eq (by decide), decode_of_encode_eq (by decide), decode_of_encode_eq (by decide),
    decode_of_encode_eq (by decide), decode_of_encode_eq (by decide), decode_of_encode_eq (by decide),
    decode_of_encode_eq (by decide), decode_of_encode_eq (by decide), decode_of_encode_eq (by decide),
    decode_of_unknownFunct (by decide) (by decide) (by decide),
    decode_of_unknownFunct (by decide) (by decide) (by decide),
    decode_of_shamtNotZero (by decide) (by decide),
    decode_of_unknownOpcode (by decide), decode_of_unknownOpcode (by decide)⟩

/-! ## The configurations that are refused (93_implementation_defined.md U16; log entry 2) -/

theorem Region.admitted_iff {r : Region} :
    r.admitted = true ↔ r.base % 4 = 0 ∧ r.base + 4 * r.words ≤ 2 ^ 32 := by
  simp [Region.admitted]

theorem Config.admitted_iff {c : Config} :
    c.admitted = true ↔ c.resetPc.toNat % 4 = 0 ∧ c.endPc.toNat % 4 = 0 ∧
      ∀ r ∈ c.dmemDomain, r.base % 4 = 0 ∧ r.base + 4 * r.words ≤ 2 ^ 32 := by
  simp only [Config.admitted, Bool.and_eq_true, decide_eq_true_eq, List.all_eq_true, Region.admitted_iff, and_assoc]

end Sys2Proof

namespace Sys2Proof.Machine

/-- The start of a cycle is the only place that refuses a configuration, before it looks at anything else. -/
theorem State.cycleWord_eq_configNotAdmitted {s : State} :
    s.cycleWord = .refused .configNotAdmitted ↔ s.cfg.admitted = false := by
  unfold State.cycleWord
  cases s.cfg.admitted with
  | false => simp
  | true =>
    cases s.fault with
    | some f => simp
    | none =>
      cases s.runOver with
      | true => simp
      | false => cases s.iFetch s.pc <;> simp

/-- Neither the decoder nor an instruction refuses a configuration. -/
theorem step_eq_configNotAdmitted {s : State} :
    step s = .refused .configNotAdmitted ↔ s.cfg.admitted = false := by
  rw [← State.cycleWord_eq_configNotAdmitted]
  cases hw : s.cycleWord with
  | fault f => simp [step, State.cycleInstr, hw]
  | refused r => simp [step, State.cycleInstr, hw]
  | next w =>
    cases hd : decode w with
    | error e => simp [step_of_decode_error hw hd]
    | ok i => simp [step_of_decode hw hd, exec_ne_refused]

/-- Settles O11: the step refuses exactly the configurations that are not admitted. -/
theorem misalignedConfigurationRefused : Obligations.MisalignedConfigurationRefused := by
  intro s
  refine ⟨fun hbad => step_eq_configNotAdmitted.2 (Bool.eq_false_iff.2 fun hc => ?_),
    fun hreset hend hdomain h => Bool.eq_false_iff.1 (step_eq_configNotAdmitted.1 h)
      (Config.admitted_iff.2 ⟨hreset, hend, hdomain⟩)⟩
  obtain ⟨hreset, hend, hdomain⟩ := Config.admitted_iff.1 hc
  rcases hbad with h | h | ⟨r, hr, h⟩
  · exact h hreset
  · exact h hend
  · exact h (hdomain r hr).1

end Sys2Proof.Machine
end
